-- ==== Sys2Proof/Word.lean ====
section
/-! DEFINITION. The bit-vector types of the machine and of its instruction fields. -/

namespace Sys2Proof

/-- A register value, an address or a memory word: 32 bits, with no sign of its own (R6, R8). -/
abbrev Word := BitVec 32

/-- The 8 bits held at one memory address (R33). -/
abbrev Byte := BitVec 8

/-- A five-bit register field, naming one of the general registers x[0] to x[31] (R20, R71). -/
abbrev RegIdx := BitVec 5

/-- The 16-bit immediate or offset field, bits 15:0 (R71). -/
abbrev Imm16 := BitVec 16

/-- The 26-bit immediate field of the jumps, bits 25:0 (R71, R75). -/
abbrev Imm26 := BitVec 26

end Sys2Proof
end

