-- ==== Sys2Proof/Syntax.lean ====
section
/-! DEFINITION. The 57 instructions of R80, one constructor per row of the opcode table. Operands
stand in the assembler's order (R77). -/

namespace Sys2Proof

/-- One instruction with its operands (R80, R92). Register fields and immediates are the encoded
fields; a constant shift amount is the number R76 makes of it. -/
inductive Instr where
  -- arithmetic, logical, compare, load upper (R100 to R117)
  | add (rd rs rt : RegIdx)
  | addi (rt rs : RegIdx) (imm : Imm16)
  | addiu (rt rs : RegIdx) (imm : Imm16)
  | addu (rd rs rt : RegIdx)
  | and (rd rs rt : RegIdx)
  | andi (rt rs : RegIdx) (imm : Imm16)
  | lui (rt : RegIdx) (imm : Imm16)
  | nor (rd rs rt : RegIdx)
  | or (rd rs rt : RegIdx)
  | ori (rt rs : RegIdx) (imm : Imm16)
  | slt (rd rs rt : RegIdx)
  | slti (rt rs : RegIdx) (imm : Imm16)
  | sltiu (rt rs : RegIdx) (imm : Imm16)
  | sltu (rd rs rt : RegIdx)
  | sub (rd rs rt : RegIdx)
  | subu (rd rs rt : RegIdx)
  | xor (rd rs rt : RegIdx)
  | xori (rt rs : RegIdx) (imm : Imm16)
  -- branches and jumps (R132 to R145)
  | beq (rs rt : RegIdx) (imm : Imm16)
  | bgez (rs : RegIdx) (imm : Imm16)
  | bgezal (rs : RegIdx) (imm : Imm16)
  | bgtz (rs : RegIdx) (imm : Imm16)
  | blez (rs : RegIdx) (imm : Imm16)
  | bltzal (rs : RegIdx) (imm : Imm16)
  | bltz (rs : RegIdx) (imm : Imm16)
  | bne (rs rt : RegIdx) (imm : Imm16)
  | j (imm : Imm26)
  | jal (imm : Imm26)
  | jalr (rd rs : RegIdx)
  | jr (rs : RegIdx)
  -- multiply, divide, HIGH and LOW (R163 to R170)
  | div (rs rt : RegIdx)
  | divu (rs rt : RegIdx)
  | mfhi (rd : RegIdx)
  | mflo (rd : RegIdx)
  | mthi (rs : RegIdx)
  | mtlo (rs : RegIdx)
  | mult (rs rt : RegIdx)
  | multu (rs rt : RegIdx)
  -- loads and stores, offset(base) (R181 to R194)
  | lb (rt : RegIdx) (offset : Imm16) (rs : RegIdx)
  | lbu (rt : RegIdx) (offset : Imm16) (rs : RegIdx)
  | lh (rt : RegIdx) (offset : Imm16) (rs : RegIdx)
  | lhu (rt : RegIdx) (offset : Imm16) (rs : RegIdx)
  | lw (rt : RegIdx) (offset : Imm16) (rs : RegIdx)
  | lwl (rt : RegIdx) (offset : Imm16) (rs : RegIdx)
  | lwr (rt : RegIdx) (offset : Imm16) (rs : RegIdx)
  | sb (rt : RegIdx) (offset : Imm16) (rs : RegIdx)
  | sh (rt : RegIdx) (offset : Imm16) (rs : RegIdx)
  | sw (rt : RegIdx) (offset : Imm16) (rs : RegIdx)
  | swl (rt : RegIdx) (offset : Imm16) (rs : RegIdx)
  | swr (rt : RegIdx) (offset : Imm16) (rs : RegIdx)
  -- shifts (R210 to R215)
  | sll (rd rt : RegIdx) (sa : Nat)
  | sllv (rd rt rs : RegIdx)
  | sra (rd rt : RegIdx) (sa : Nat)
  | srav (rd rt rs : RegIdx)
  | srl (rd rt : RegIdx) (sa : Nat)
  | srlv (rd rt rs : RegIdx)
  -- system call (R220)
  | syscall
deriving DecidableEq, Repr

end Sys2Proof
end

