-- ==== Sys2Proof/WellFormed.lean ====
section
/-! DEFINITION. Which instruction terms can be encoded. -/

namespace Sys2Proof

/-- The operands fit their fields: a constant shift amount is 0 to 31 (R76, R92: "`sa` is 0..31").
Every other operand is a field of its own width and always fits. -/
def Instr.wellFormed : Instr → Bool
  | .sll _ _ sa => decide (sa < 32)
  | .sra _ _ sa => decide (sa < 32)
  | .srl _ _ sa => decide (sa < 32)
  | .add .. | .addi .. | .addiu .. | .addu .. | .and .. | .andi .. | .lui .. | .nor .. | .or ..
  | .ori .. | .slt .. | .slti .. | .sltiu .. | .sltu .. | .sub .. | .subu .. | .xor .. | .xori ..
  | .beq .. | .bgez .. | .bgezal .. | .bgtz .. | .blez .. | .bltzal .. | .bltz .. | .bne ..
  | .j .. | .jal .. | .jalr .. | .jr .. | .div .. | .divu .. | .mfhi .. | .mflo .. | .mthi ..
  | .mtlo .. | .mult .. | .multu .. | .lb .. | .lbu .. | .lh .. | .lhu .. | .lw .. | .lwl ..
  | .lwr .. | .sb .. | .sh .. | .sw .. | .swl .. | .swr .. | .sllv .. | .srav .. | .srlv ..
  | .syscall => true

end Sys2Proof
end

