-- ==== Sys2Proof/Decode.lean ====
section
/-! DEFINITION. The decoder and the encoder, written from the opcode table of R80 and the maps of
R81, R82 and R83, and the byte order of a word in memory (R42, R43). -/

namespace Sys2Proof

/-- Why a sequence of bytes is no instruction. Each name but `truncated` is a form of the spec's
`ReservedInstruction` (R89, R90). -/
inductive DecodeError where
  /-- fewer than four bytes: no instruction is that short (R70) -/
  | truncated
  /-- the primary opcode is a `-` cell of R83 -/
  | reservedOp (w : Word)
  /-- `op` is 000000 and `funct` is a `-` cell of R81 -/
  | reservedFunct (w : Word)
  /-- `op` is 000001 and `code` is none of the four values of R82 -/
  | reservedCode (w : Word)
  /-- a field the table shows as zeros is not zero (R90, `StrictDecode = true`) -/
  | nonZeroField (w : Word)
deriving DecidableEq, Repr

/-! ### Fields (R71) -/

/-- `op`, bits 31:26. -/
def opOf (w : Word) : BitVec 6 := w.extractLsb' 26 6
/-- `rs`, bits 25:21. -/
def rsOf (w : Word) : RegIdx := w.extractLsb' 21 5
/-- `rt` (or `code`), bits 20:16. -/
def rtOf (w : Word) : RegIdx := w.extractLsb' 16 5
/-- `rd`, bits 15:11. -/
def rdOf (w : Word) : RegIdx := w.extractLsb' 11 5
/-- `sa`, bits 10:6. -/
def saOf (w : Word) : BitVec 5 := w.extractLsb' 6 5
/-- `funct`, bits 5:0. -/
def functOf (w : Word) : BitVec 6 := w.extractLsb' 0 6
/-- `imm16`, bits 15:0. -/
def imm16Of (w : Word) : Imm16 := w.extractLsb' 0 16
/-- `imm26`, bits 25:0. -/
def imm26Of (w : Word) : Imm26 := w.extractLsb' 0 26

/-! ### Decoding -/

/-- R90: the word is the instruction only when its must-be-zero fields are zero. -/
def strict (zero : Bool) (w : Word) (i : Instr) : Except DecodeError Instr :=
  if zero then .ok i else .error (.nonZeroField w)

/-- Layout R (R72), `op` = 000000, selected by `funct` (R81). -/
def decodeR (w : Word) : Except DecodeError Instr :=
  let rs := rsOf w
  let rt := rtOf w
  let rd := rdOf w
  let sa := saOf w
  match functOf w with
  | 0b000000#6 => strict (rs == 0) w (.sll rd rt sa.toNat)
  | 0b000010#6 => strict (rs == 0) w (.srl rd rt sa.toNat)
  | 0b000011#6 => strict (rs == 0) w (.sra rd rt sa.toNat)
  | 0b000100#6 => strict (sa == 0) w (.sllv rd rt rs)
  | 0b000110#6 => strict (sa == 0) w (.srlv rd rt rs)
  | 0b000111#6 => strict (sa == 0) w (.srav rd rt rs)
  | 0b001000#6 => strict (rt == 0 && rd == 0 && sa == 0) w (.jr rs)
  | 0b001001#6 => strict (rt == 0 && sa == 0) w (.jalr rd rs)
  | 0b001100#6 => strict (rs == 0 && rt == 0 && rd == 0 && sa == 0) w .syscall
  | 0b010000#6 => strict (rs == 0 && rt == 0 && sa == 0) w (.mfhi rd)
  | 0b010001#6 => strict (rt == 0 && rd == 0 && sa == 0) w (.mthi rs)
  | 0b010010#6 => strict (rs == 0 && rt == 0 && sa == 0) w (.mflo rd)
  | 0b010011#6 => strict (rt == 0 && rd == 0 && sa == 0) w (.mtlo rs)
  | 0b011000#6 => strict (rd == 0 && sa == 0) w (.mult rs rt)
  | 0b011001#6 => strict (rd == 0 && sa == 0) w (.multu rs rt)
  | 0b011010#6 => strict (rd == 0 && sa == 0) w (.div rs rt)
  | 0b011011#6 => strict (rd == 0 && sa == 0) w (.divu rs rt)
  | 0b100000#6 => strict (sa == 0) w (.add rd rs rt)
  | 0b100001#6 => strict (sa == 0) w (.addu rd rs rt)
  | 0b100010#6 => strict (sa == 0) w (.sub rd rs rt)
  | 0b100011#6 => strict (sa == 0) w (.subu rd rs rt)
  | 0b100100#6 => strict (sa == 0) w (.and rd rs rt)
  | 0b100101#6 => strict (sa == 0) w (.or rd rs rt)
  | 0b100110#6 => strict (sa == 0) w (.xor rd rs rt)
  | 0b100111#6 => strict (sa == 0) w (.nor rd rs rt)
  | 0b101010#6 => strict (sa == 0) w (.slt rd rs rt)
  | 0b101011#6 => strict (sa == 0) w (.sltu rd rs rt)
  | _ => .error (.reservedFunct w)

/-- Layout RI (R74), `op` = 000001, selected by `code` in the `rt` position (R82). -/
def decodeRI (w : Word) : Except DecodeError Instr :=
  match rtOf w with
  | 0b00000#5 => .ok (.bltz (rsOf w) (imm16Of w))
  | 0b00001#5 => .ok (.bgez (rsOf w) (imm16Of w))
  | 0b10000#5 => .ok (.bltzal (rsOf w) (imm16Of w))
  | 0b10001#5 => .ok (.bgezal (rsOf w) (imm16Of w))
  | _ => .error (.reservedCode w)

/-- The instruction a 32-bit word is, by the primary opcode map of R83; every other word is reserved
(R89). -/
def decodeWord (w : Word) : Except DecodeError Instr :=
  let rs := rsOf w
  let rt := rtOf w
  let imm := imm16Of w
  match opOf w with
  | 0b000000#6 => decodeR w
  | 0b000001#6 => decodeRI w
  | 0b000010#6 => .ok (.j (imm26Of w))
  | 0b000011#6 => .ok (.jal (imm26Of w))
  | 0b000100#6 => .ok (.beq rs rt imm)
  | 0b000101#6 => .ok (.bne rs rt imm)
  | 0b000110#6 => strict (rt == 0) w (.blez rs imm)
  | 0b000111#6 => strict (rt == 0) w (.bgtz rs imm)
  | 0b001000#6 => .ok (.addi rt rs imm)
  | 0b001001#6 => .ok (.addiu rt rs imm)
  | 0b001010#6 => .ok (.slti rt rs imm)
  | 0b001011#6 => .ok (.sltiu rt rs imm)
  | 0b001100#6 => .ok (.andi rt rs imm)
  | 0b001101#6 => .ok (.ori rt rs imm)
  | 0b001110#6 => .ok (.xori rt rs imm)
  | 0b001111#6 => strict (rs == 0) w (.lui rt imm)
  | 0b100000#6 => .ok (.lb rt imm rs)
  | 0b100001#6 => .ok (.lh rt imm rs)
  | 0b100010#6 => .ok (.lwl rt imm rs)
  | 0b100011#6 => .ok (.lw rt imm rs)
  | 0b100100#6 => .ok (.lbu rt imm rs)
  | 0b100101#6 => .ok (.lhu rt imm rs)
  | 0b100110#6 => .ok (.lwr rt imm rs)
  | 0b101000#6 => .ok (.sb rt imm rs)
  | 0b101001#6 => .ok (.sh rt imm rs)
  | 0b101010#6 => .ok (.swl rt imm rs)
  | 0b101011#6 => .ok (.sw rt imm rs)
  | 0b101110#6 => .ok (.swr rt imm rs)
  | _ => .error (.reservedOp w)

/-! ### Byte order (R40 to R43) -/

/-- The word whose four bytes stand in address order `b0 b1 b2 b3` (R42 for n = 4). -/
def wordOfBytes (bigEndian : Bool) (b0 b1 b2 b3 : Byte) : Word :=
  if bigEndian then b0 ++ b1 ++ b2 ++ b3 else b3 ++ b2 ++ b1 ++ b0

/-- The byte of `v` that `MemWrite(addr, n, v)` stores at `addr + i` (R43). -/
def byteOfWord (bigEndian : Bool) (n : Nat) (v : Word) (i : Nat) : Byte :=
  v.extractLsb' (8 * if bigEndian then n - 1 - i else i) 8

/-- The decoder over bytes in address order: one instruction and the bytes after it. Every
instruction is four bytes long (R70) and lies in memory as a word does (R45). -/
def decodeBytes (bigEndian : Bool) : List Byte → Except DecodeError (Instr × List Byte)
  | b0 :: b1 :: b2 :: b3 :: rest =>
    match decodeWord (wordOfBytes bigEndian b0 b1 b2 b3) with
    | .ok i => .ok (i, rest)
    | .error e => .error e
  | _ => .error .truncated

/-- The bytes of a word in address order (R43 for n = 4). -/
def bytesOfWord (bigEndian : Bool) (w : Word) : List Byte :=
  (List.range 4).map (byteOfWord bigEndian 4 w)

/-- The word an opcode-table row's bits stand for: every bit above `nbits` is zero. -/
def tableWord (nbits w : Nat) : Word := BitVec.ofNat 32 (w % 2 ^ nbits)

/-- What the decoder reads from an instruction whose bits are `w`, laid out in memory; the answer is
the same in both byte orders (R45), and this uses the byte order of `State.reset`. -/
def decodeTableWord (nbits w : Nat) : Option Instr :=
  match decodeBytes false (bytesOfWord false (tableWord nbits w)) with
  | .ok (i, _) => some i
  | .error _ => none

/-! ### Encoding (R72 to R75, R80) -/

/-- Layout R. -/
def encodeR (rs rt rd : RegIdx) (sa : BitVec 5) (funct : BitVec 6) : Word :=
  0b000000#6 ++ rs ++ rt ++ rd ++ sa ++ funct

/-- Layouts I and RI. -/
def encodeI (op : BitVec 6) (rs rt : RegIdx) (imm : Imm16) : Word := op ++ rs ++ rt ++ imm

/-- Layout J. -/
def encodeJ (op : BitVec 6) (imm : Imm26) : Word := op ++ imm

/-- The word of an instruction, row by row of R80. -/
def encode : Instr → Word
  | .add rd rs rt => encodeR rs rt rd 0 0b100000#6
  | .addi rt rs imm => encodeI 0b001000#6 rs rt imm
  | .addiu rt rs imm => encodeI 0b001001#6 rs rt imm
  | .addu rd rs rt => encodeR rs rt rd 0 0b100001#6
  | .and rd rs rt => encodeR rs rt rd 0 0b100100#6
  | .andi rt rs imm => encodeI 0b001100#6 rs rt imm
  | .beq rs rt imm => encodeI 0b000100#6 rs rt imm
  | .bgez rs imm => encodeI 0b000001#6 rs 0b00001#5 imm
  | .bgezal rs imm => encodeI 0b000001#6 rs 0b10001#5 imm
  | .bgtz rs imm => encodeI 0b000111#6 rs 0 imm
  | .blez rs imm => encodeI 0b000110#6 rs 0 imm
  | .bltzal rs imm => encodeI 0b000001#6 rs 0b10000#5 imm
  | .bltz rs imm => encodeI 0b000001#6 rs 0b00000#5 imm
  | .bne rs rt imm => encodeI 0b000101#6 rs rt imm
  | .div rs rt => encodeR rs rt 0 0 0b011010#6
  | .divu rs rt => encodeR rs rt 0 0 0b011011#6
  | .j imm => encodeJ 0b000010#6 imm
  | .jal imm => encodeJ 0b000011#6 imm
  | .jalr rd rs => encodeR rs 0 rd 0 0b001001#6
  | .jr rs => encodeR rs 0 0 0 0b001000#6
  | .lb rt imm rs => encodeI 0b100000#6 rs rt imm
  | .lbu rt imm rs => encodeI 0b100100#6 rs rt imm
  | .lh rt imm rs => encodeI 0b100001#6 rs rt imm
  | .lhu rt imm rs => encodeI 0b100101#6 rs rt imm
  | .lui rt imm => encodeI 0b001111#6 0 rt imm
  | .lw rt imm rs => encodeI 0b100011#6 rs rt imm
  | .lwl rt imm rs => encodeI 0b100010#6 rs rt imm
  | .lwr rt imm rs => encodeI 0b100110#6 rs rt imm
  | .mfhi rd => encodeR 0 0 rd 0 0b010000#6
  | .mflo rd => encodeR 0 0 rd 0 0b010010#6
  | .mthi rs => encodeR rs 0 0 0 0b010001#6
  | .mtlo rs => encodeR rs 0 0 0 0b010011#6
  | .mult rs rt => encodeR rs rt 0 0 0b011000#6
  | .multu rs rt => encodeR rs rt 0 0 0b011001#6
  | .nor rd rs rt => encodeR rs rt rd 0 0b100111#6
  | .or rd rs rt => encodeR rs rt rd 0 0b100101#6
  | .ori rt rs imm => encodeI 0b001101#6 rs rt imm
  | .sb rt imm rs => encodeI 0b101000#6 rs rt imm
  | .sh rt imm rs => encodeI 0b101001#6 rs rt imm
  | .sll rd rt sa => encodeR 0 rt rd (BitVec.ofNat 5 sa) 0b000000#6
  | .sllv rd rt rs => encodeR rs rt rd 0 0b000100#6
  | .slt rd rs rt => encodeR rs rt rd 0 0b101010#6
  | .slti rt rs imm => encodeI 0b001010#6 rs rt imm
  | .sltiu rt rs imm => encodeI 0b001011#6 rs rt imm
  | .sltu rd rs rt => encodeR rs rt rd 0 0b101011#6
  | .sra rd rt sa => encodeR 0 rt rd (BitVec.ofNat 5 sa) 0b000011#6
  | .srav rd rt rs => encodeR rs rt rd 0 0b000111#6
  | .srl rd rt sa => encodeR 0 rt rd (BitVec.ofNat 5 sa) 0b000010#6
  | .srlv rd rt rs => encodeR rs rt rd 0 0b000110#6
  | .sub rd rs rt => encodeR rs rt rd 0 0b100010#6
  | .subu rd rs rt => encodeR rs rt rd 0 0b100011#6
  | .sw rt imm rs => encodeI 0b101011#6 rs rt imm
  | .swl rt imm rs => encodeI 0b101010#6 rs rt imm
  | .swr rt imm rs => encodeI 0b101110#6 rs rt imm
  | .syscall => encodeR 0 0 0 0 0b001100#6
  | .xor rd rs rt => encodeR rs rt rd 0 0b100110#6
  | .xori rt rs imm => encodeI 0b001110#6 rs rt imm

end Sys2Proof
end

