-- ==== Sys2Proof/Config.lean ====
section
/-! DEFINITION. The parameters the spec leaves open (R6) as plain data, and the free values. -/

namespace Sys2Proof

/-- The three kinds of memory access `MemValid` is asked about (R52). -/
inductive AccessKind where
  | fetch
  | load
  | store
deriving DecidableEq, Repr

/-- A range of addresses that exist, and for which kinds of access they do (R52: "the regions a
loader set up"). -/
structure Region where
  base : Nat
  size : Nat
  fetch : Bool
  load : Bool
  store : Bool
deriving DecidableEq, Repr

/-- The open parameters of R6 that a step reads. They are fixed for a whole run (R40) and no
instruction can change them. `bigEndian` is R40's `BigEndian`; `regions` is R52's `MemValid` as
plain data (assumption 2). -/
structure Params where
  bigEndian : Bool
  regions : List Region
deriving DecidableEq, Repr

/-- The free value: the n-th unconstrained 32-bit draw (R161, "an arbitrary 32-bit value (a draw the
model does not constrain ...)"). It has no body, so no proof can lean on what a draw is
(assumption 10). -/
opaque Config.freeWord : Nat → Word

end Sys2Proof
end

