-- ==== Sys2Proof/Machine/State.lean ====
section
/-! DEFINITION. The machine's state as plain data, the ways a step can stop, and the state after
reset. -/

namespace Sys2Proof.Machine

open Sys2Proof

/-- Byte memory (R33): the listed addresses with their bytes, in the canonical form
`Memory.wf` of Ops.lean; an address that is not listed reads as `Memory.unlisted`. -/
abbrev Memory := List Host.Cell

/-- A state the environment resumes the run from, told as what it changes (R232, R221: "whatever
registers and memory it changed are part of its own description"): the pc to go on at, general
registers written, HI and LO where written, and bytes written. -/
structure Resume where
  pc : Word
  regs : List (RegIdx × Word)
  hi : Option Word
  lo : Option Word
  bytes : List (Word × Byte)
deriving DecidableEq, Repr

/-- The environment's answer to one trap: "either a state to resume from or the end of the run"
(R232). -/
inductive EnvAnswer where
  | endRun
  | resume (r : Resume)
deriving DecidableEq, Repr, Inhabited

/-- The whole state. `gpr` holds x[1] to x[31] (x[0] is no storage, R21), `pc`, `hi`, `lo` and `mem`
are R25, R28 and R33. The last four are the MODEL's own: the open parameters of R6 (fixed for a
run), the answers of the environment that are settled in advance and the number of traps it has
resumed from so far (assumption 8), and the number of free values drawn so far (assumption 10). -/
structure State where
  gpr : Vector Word 31
  pc : Word
  hi : Word
  lo : Word
  mem : Memory
  params : Params
  env : List EnvAnswer
  traps : Nat
  draws : Nat
deriving DecidableEq, Repr

/-- The events of R230, each with the information it carries. A step that ends in one is the spec's
`Trap(E, State)`: the state the host still holds is the state before the instruction (R233). -/
inductive Fault where
  /-- `add`, `addi`, `sub`: the exact signed result does not fit (R118); raised when the environment
  does not resume the run. Safe: the spec's own trap. -/
  | integerOverflow (pc : Word)
  /-- a misaligned fetch, load or store (R47), `addr` the misaligned address; raised when the
  environment does not resume the run. Safe: the spec's own trap. -/
  | addressError (kind : AccessKind) (addr pc : Word)
  /-- `syscall` (R220); raised when the environment does not resume the run. Safe: the spec's own
  trap. -/
  | syscall (pc : Word)
  /-- the step, when the fetched word `w` is no instruction (R89). Safe: silicon may do something
  else with such a word, and the model then proves nothing about it. -/
  | reservedInstruction (w pc : Word)
  /-- an access that `MemValid` refuses (R52). Safe: the model proves nothing about what the platform
  does there. -/
  | busFault (kind : AccessKind) (addr pc : Word)
  /-- `jalr` with `rs = rd`, both non-zero (R144). Safe: the model gives the case no meaning. -/
  | unpredictable (pc : Word)
deriving DecidableEq, Repr

/-- Why the model gives an instruction no meaning. -/
inductive Refusal where
  /-- raised by an arm of `exec` whose instruction has no meaning in the model. Safe: nothing can be
  proved of it. No arm raises it: every instruction of R80 is modelled. -/
  | notModelled (mnemonic : String)
deriving DecidableEq, Repr

end Sys2Proof.Machine

namespace Sys2Proof

open Sys2Proof.Machine

/-- The open parameter `Env` (R6, R232): what the execution environment answers to a trap
`Trap(E, State)`; `fun s => Config.env (.syscall s.pc) s` is R221's `Env.syscall`. It has no body, so
nothing is known of how it computes its answer, and a proof holds for every environment
(assumption 8). It stands here because its type speaks of `State`. -/
opaque Config.env : Fault → State → EnvAnswer

end Sys2Proof

namespace Sys2Proof.Machine

open Sys2Proof

/-- What a step or a meaning answers. -/
abbrev Result := Host.Outcome State Fault Refusal

/-- A flat 4 GiB memory: every address exists for every kind of access, the choice R52 offers
(assumption 2). -/
def flatRegion : Region :=
  { base := 0, size := 2 ^ 32, fetch := true, load := true, store := true }

/-- The start of a run (R35, R260), where the spec gives no values but `x[0]` and that `pc` is a
multiple of 4: the values here are assumptions 1 to 6, 8 and 10. -/
def State.reset : State where
  gpr := Vector.replicate 31 0
  pc := 0
  hi := 0
  lo := 0
  mem := []
  params := { bigEndian := false, regions := [flatRegion] }
  env := []
  traps := 0
  draws := 0

end Sys2Proof.Machine
end

