-- ==== Sys2Proof/Machine/Ops.lean ====
section
/-! DEFINITION. The named operations over registers, memory, traps and the program counter that every
meaning is written with. -/

namespace Sys2Proof.Machine

open Sys2Proof

/-! ### General registers (R20, R21) -/

/-- `x[r]`: register 0 reads as 0 (R21). -/
def State.reg (s : State) (r : RegIdx) : Word :=
  if r = 0 then 0
  else s.gpr[r.toNat - 1]'(by have := r.isLt; omega)

/-- `x[r] <- v`: a write to register 0 is discarded (R21). -/
def State.setReg (s : State) (r : RegIdx) (v : Word) : State :=
  if r = 0 then s
  else { s with gpr := s.gpr.set (r.toNat - 1) v (by have := r.isLt; omega) }

/-- Several register writes, the first first. -/
def State.setRegs (s : State) (ws : List (RegIdx × Word)) : State :=
  ws.foldl (fun t w => t.setReg w.1 w.2) s

/-- The number of `$ra` (R22). -/
def raReg : RegIdx := 31

/-! ### Program counter, HIGH and LOW (R25 to R29) -/

/-- `npc = pc + 4` modulo 2^32 (R26, R27). -/
def State.npc (s : State) : Word := s.pc + 4

/-- `pc <- t` (R10). -/
def State.setPc (s : State) (t : Word) : State := { s with pc := t }

/-- `pc <- npc`: the end of every instruction that transfers no control (R27). -/
def State.advance (s : State) : State := s.setPc s.npc

/-- `HI <- h`. -/
def State.setHi (s : State) (h : Word) : State := { s with hi := h }

/-- `LO <- l`. -/
def State.setLo (s : State) (l : Word) : State := { s with lo := l }

/-- `HI <- any; LO <- any`: two fresh draws (R161). -/
def State.drawHiLo (s : State) : State :=
  { s with
    hi := Config.freeWord s.draws
    lo := Config.freeWord (s.draws + 1)
    draws := s.draws + 2 }

/-! ### Memory as a canonical list of bytes (R33) -/

/-- What an address that nothing has written and nothing has loaded reads as (assumption 6). -/
def Memory.unlisted : Byte := 0

/-- The canonical form: addresses strictly rising and below 2^32, no entry equal to what an unlisted
address reads as. -/
abbrev Memory.wf (m : Memory) : Prop :=
  m.Pairwise (fun c d => c.1 < d.1) ∧ ∀ c ∈ m, c.1 < 2 ^ 32 ∧ c.2 ≠ Memory.unlisted

/-- The byte at an address. -/
def Memory.read : Memory → Nat → Byte
  | [], _ => Memory.unlisted
  | (k, v) :: m, a => if k = a then v else Memory.read m a

/-- A byte put in front of a list whose addresses all lie above `a`, unless it is what an unlisted
address reads as. -/
def Memory.consByte (a : Nat) (b : Byte) (m : Memory) : Memory :=
  if b = Memory.unlisted then m else (a, b) :: m

/-- A byte put into a list that holds no entry for its address, before the first higher address. -/
def Memory.insert : Memory → Nat → Byte → Memory
  | [], a, b => Memory.consByte a b []
  | c :: m, a, b =>
    if a < c.1 then Memory.consByte a b (c :: m) else c :: Memory.insert m a b

/-- One byte written, the canonical form kept: any entry for the address is taken out first. -/
def Memory.write (m : Memory) (a : Nat) (b : Byte) : Memory :=
  Memory.insert (m.filter fun c => decide (c.1 ≠ a)) a b

/-- `M[a]` (R10). -/
def State.byte (s : State) (a : Word) : Byte := Memory.read s.mem a.toNat

/-- `M[a] <- b`. -/
def State.setByte (s : State) (a : Word) (b : Byte) : State :=
  { s with mem := Memory.write s.mem a.toNat b }

/-- Several byte writes, the first first. -/
def State.setBytes (s : State) (ws : List (Word × Byte)) : State :=
  ws.foldl (fun t w => t.setByte w.1 w.2) s

/-! ### Reads and writes of several bytes (R41 to R43) -/

/-- `MemRead(a, 2)` (R42). -/
def State.readHalf (s : State) (a : Word) : BitVec 16 :=
  if s.params.bigEndian then s.byte a ++ s.byte (a + 1) else s.byte (a + 1) ++ s.byte a

/-- `MemRead(a, 4)` (R42). -/
def State.readWord (s : State) (a : Word) : Word :=
  wordOfBytes s.params.bigEndian (s.byte a) (s.byte (a + 1)) (s.byte (a + 2)) (s.byte (a + 3))

/-- The bytes `MemWrite(a, n, v)` stores, `v` the low `8n` bits of a word (R43). -/
def storeBytes (bigEndian : Bool) (a : Word) (n : Nat) (v : Word) : List (Word × Byte) :=
  (List.range n).map fun i => (a + BitVec.ofNat 32 i, byteOfWord bigEndian n v i)

/-- `MemWrite(a, n, v)` (R43). -/
def State.memWrite (s : State) (a : Word) (n : Nat) (v : Word) : State :=
  s.setBytes (storeBytes s.params.bigEndian a n v)

/-- The base `A` of the aligned word that holds the byte at `a` (R41). -/
def wordBase (a : Word) : Word := a &&& 0xFFFFFFFC#32

/-- `sig(a)`: the significance of the byte at `a` in its aligned word, 0 the least (R41). -/
def sig (bigEndian : Bool) (a : Word) : Nat :=
  if bigEndian then 3 - a.toNat % 4 else a.toNat % 4

/-- The address of the byte of significance `k` in the aligned word at `base` (R41). -/
def sigAddr (bigEndian : Bool) (base : Word) (k : Nat) : Word :=
  base + BitVec.ofNat 32 (if bigEndian then 3 - k else k)

/-! ### Which addresses exist (R52) -/

/-- The region admits the access kind. -/
def admits (r : Region) : AccessKind → Bool
  | .fetch => r.fetch
  | .load => r.load
  | .store => r.store

/-- The byte at `a` exists for accesses of this kind. -/
def byteValid (rs : List Region) (kind : AccessKind) (a : Nat) : Bool :=
  rs.any fun r => admits r kind && decide (r.base ≤ a) && decide (a < r.base + r.size)

/-- `MemValid(a, n, kind)` (R52): every byte of the access exists (assumption 2). -/
def State.memValid (s : State) (a : Word) (n : Nat) (kind : AccessKind) : Bool :=
  (List.range n).all fun i => byteValid s.params.regions kind (a.toNat + i)

/-! ### Taking a trap, and the environment's return from it (R232, R233, R221) -/

/-- The events the environment may resume the run from. Of the other three the spec says that the
model treats them as a fault: R89 ("never gives such a word a meaning"), R52 and R144
(assumption 9). -/
def resumable : Fault → Bool
  | .integerOverflow _ => true
  | .addressError _ _ _ => true
  | .syscall _ => true
  | .reservedInstruction _ _ => false
  | .busFault _ _ _ => false
  | .unpredictable _ => false

/-- Where the run goes on: after a system call always at `pc + 4` of the `syscall` (R221), after any
other trap where the environment says (R232). -/
def resumePc (e : Fault) (r : Resume) : Word :=
  match e with
  | .syscall pc => pc + 4
  | .integerOverflow _ => r.pc
  | .addressError _ _ _ => r.pc
  | .reservedInstruction _ _ => r.pc
  | .busFault _ _ _ => r.pc
  | .unpredictable _ => r.pc

/-- The state the environment resumes from: the state before the trapping instruction (R233) with the
environment's changes. -/
def resumeFrom (e : Fault) (r : Resume) (s : State) : State :=
  ((((s.setRegs r.regs).setHi (r.hi.getD s.hi)).setLo (r.lo.getD s.lo)).setBytes
    r.bytes).setPc (resumePc e r)

/-- The environment's answer to the trap `Trap(e, s)` (R232): the next of the answers that the state
settles in advance, or, where it settles none, what the open parameter `Env` answers
(assumption 8). -/
def envAnswer (e : Fault) (s : State) : EnvAnswer :=
  match s.env with
  | a :: _ => a
  | [] => Config.env e s

/-- One more trap has its answer. -/
def State.answered (s : State) : State := { s with env := s.env.tail, traps := s.traps + 1 }

/-- `raise E` (R10, R232): the instruction has no effect of its own. The environment's answer decides:
a state to resume from, or the end of the run, which leaves `Trap(E, State)`. -/
def raise (e : Fault) (s : State) : Result :=
  if resumable e then
    match envAnswer e s with
    | .resume r => .next (resumeFrom e r s.answered)
    | .endRun => .fault e
  else .fault e

/-- An access checked in the spec's order (R48, R180, R236): the alignment of `ea` first, then
whether the `n` bytes from `lo` exist; only then `go` takes place. -/
def access (kind : AccessKind) (align : Nat) (ea lo : Word) (n : Nat) (s : State) (go : Result) :
    Result :=
  if ea.toNat % align ≠ 0 then raise (.addressError kind ea s.pc) s
  else if s.memValid lo n kind then go
  else raise (.busFault kind lo s.pc) s

/-! ### How an instruction ends -/

/-- `x[r] <- v`, then `pc <- npc`. -/
def writeBack (r : RegIdx) (v : Word) (s : State) : Result := .next (s.setReg r v).advance

/-- `HI <- h; LO <- l`, then `pc <- npc` (R160). -/
def writeHiLo (h l : Word) (s : State) : Result := .next ((s.setHi h).setLo l).advance

/-- The bytes `ws` are stored, then `pc <- npc`. -/
def storeBack (ws : List (Word × Byte)) (s : State) : Result := .next (s.setBytes ws).advance

end Sys2Proof.Machine
end

