-- ==== Sys2Proof/Machine/Flags.lean ====
section
/-! DEFINITION. The machine has no flags (R30). What other machines report in flags it reports by an
exception (overflow, R118) or as a general register's 0 or 1 (the comparisons, R119). -/

namespace Sys2Proof.Machine

open Sys2Proof

/-- The exact result is representable in 32 signed bits (R118). -/
def fitsSigned (z : Int) : Bool := decide (-2 ^ 31 ≤ z) && decide (z ≤ 2 ^ 31 - 1)

/-- `x[r] <- z mod 2^32` when the exact result `z` fits, else the overflow exception and no other
effect (R100, R101, R114, R233). -/
def writeChecked (r : RegIdx) (z : Int) (s : State) : Result :=
  if fitsSigned z then writeBack r (BitVec.ofInt 32 z) s else raise (.integerOverflow s.pc) s

/-- The 32-bit value 1 or 0 a comparison writes (R110 to R113). -/
def boolWord (b : Bool) : Word := if b then 1 else 0

/-- `signed(a) < signed(b)` (R110). -/
def signedLess (a b : Word) : Bool := decide (a.toInt < b.toInt)

/-- `unsigned(a) < unsigned(b)` (R113). -/
def unsignedLess (a b : Word) : Bool := decide (a.toNat < b.toNat)

end Sys2Proof.Machine
end

