-- ==== Sys2Proof/Machine/Operands.lean ====
section
/-! DEFINITION. Every operand form of R76, and the addresses the partial-word instructions touch
(R186, R196). -/

namespace Sys2Proof.Machine

open Sys2Proof

/-- `sext_32(imm16)` (R9). -/
def sext (imm : Imm16) : Word := imm.signExtend 32

/-- `zext_32(imm16)` (R9). -/
def zext (imm : Imm16) : Word := imm.zeroExtend 32

/-- `imm16 ++ 0x0000` (R106). -/
def upper (imm : Imm16) : Word := imm ++ 0#16

/-- The effective address `x[rs] + sext_32(imm16)` modulo 2^32 (R51, R180). -/
def effAddr (s : State) (rs : RegIdx) (offset : Imm16) : Word := s.reg rs + sext offset

/-- The target of a taken branch, `npc + (sext_32(imm16) << 2)` modulo 2^32 (R131). -/
def branchTarget (s : State) (imm : Imm16) : Word := s.npc + (sext imm <<< 2)

/-- The target of `j` and `jal`, `npc[31:28] ++ imm26 ++ 00` (R141). -/
def jumpTarget (s : State) (imm : Imm26) : Word := s.npc.extractLsb' 28 4 ++ imm ++ 0#2

/-- The amount of a variable shift, `x[rs][4:0]` (R211). -/
def shiftAmount (s : State) (rs : RegIdx) : Nat := ((s.reg rs).extractLsb' 0 5).toNat

/-- The lowest address and the number of bytes `lwl` and `swl` touch: the bytes of significance `k`
down to 0 (R186, R187, R193, R196). -/
def leftSpan (bigEndian : Bool) (ea : Word) : Word × Nat :=
  (if bigEndian then ea else wordBase ea, sig bigEndian ea + 1)

/-- The lowest address and the number of bytes `lwr` and `swr` touch: the bytes of significance `k`
up to 3 (R186, R188, R194, R196). -/
def rightSpan (bigEndian : Bool) (ea : Word) : Word × Nat :=
  (if bigEndian then wordBase ea else ea, 4 - sig bigEndian ea)

/-- A word from its bytes by significance, 0 the least. -/
def wordOfSig (f : Nat → Byte) : Word := f 3 ++ f 2 ++ f 1 ++ f 0

/-- The byte of significance `i` of a word. -/
def sigByte (v : Word) (i : Nat) : Byte := v.extractLsb' (8 * i) 8

/-- What `lwl` makes of the old register value: the top `k + 1` bytes are the bytes of significance
0 to `k` of the memory word, the others keep their value (R187). -/
def leftMerge (s : State) (ea old : Word) : Word :=
  let k := sig s.params.bigEndian ea
  wordOfSig fun i =>
    if 3 - k ≤ i then s.byte (sigAddr s.params.bigEndian (wordBase ea) (i - (3 - k)))
    else sigByte old i

/-- What `lwr` makes of the old register value: the low `4 - k` bytes are the bytes of significance
`k` to 3 of the memory word, the others keep their value (R188). -/
def rightMerge (s : State) (ea old : Word) : Word :=
  let k := sig s.params.bigEndian ea
  wordOfSig fun i =>
    if i < 4 - k then s.byte (sigAddr s.params.bigEndian (wordBase ea) (i + k))
    else sigByte old i

/-- The bytes `swl` stores: for j in 0..k, the byte of significance k-j takes the register's byte of
significance 3-j (R193). -/
def leftStore (bigEndian : Bool) (ea v : Word) : List (Word × Byte) :=
  let k := sig bigEndian ea
  (List.range (k + 1)).map fun j =>
    (sigAddr bigEndian (wordBase ea) (k - j), sigByte v (3 - j))

/-- The bytes `swr` stores: for j in 0..3-k, the byte of significance k+j takes the register's byte
of significance j (R194). -/
def rightStore (bigEndian : Bool) (ea v : Word) : List (Word × Byte) :=
  let k := sig bigEndian ea
  (List.range (4 - k)).map fun j =>
    (sigAddr bigEndian (wordBase ea) (k + j), sigByte v j)

end Sys2Proof.Machine
end

