-- ==== Sys2Proof/Machine/ArithLogic.lean ====
section
/-! DEFINITION. Arithmetic, logical, compare and load-upper instructions (R100 to R117). -/

namespace Sys2Proof.Machine

open Sys2Proof

/-- R100. -/
def execAdd (rd rs rt : RegIdx) (s : State) : Result :=
  writeChecked rd ((s.reg rs).toInt + (s.reg rt).toInt) s

/-- R101. -/
def execAddi (rt rs : RegIdx) (imm : Imm16) (s : State) : Result :=
  writeChecked rt ((s.reg rs).toInt + (sext imm).toInt) s

/-- R102. -/
def execAddiu (rt rs : RegIdx) (imm : Imm16) (s : State) : Result :=
  writeBack rt (s.reg rs + sext imm) s

/-- R103. -/
def execAddu (rd rs rt : RegIdx) (s : State) : Result :=
  writeBack rd (s.reg rs + s.reg rt) s

/-- R104. -/
def execAnd (rd rs rt : RegIdx) (s : State) : Result :=
  writeBack rd (s.reg rs &&& s.reg rt) s

/-- R105. -/
def execAndi (rt rs : RegIdx) (imm : Imm16) (s : State) : Result :=
  writeBack rt (s.reg rs &&& zext imm) s

/-- R106. -/
def execLui (rt : RegIdx) (imm : Imm16) (s : State) : Result :=
  writeBack rt (upper imm) s

/-- R107. -/
def execNor (rd rs rt : RegIdx) (s : State) : Result :=
  writeBack rd (~~~(s.reg rs ||| s.reg rt)) s

/-- R108. -/
def execOr (rd rs rt : RegIdx) (s : State) : Result :=
  writeBack rd (s.reg rs ||| s.reg rt) s

/-- R109. -/
def execOri (rt rs : RegIdx) (imm : Imm16) (s : State) : Result :=
  writeBack rt (s.reg rs ||| zext imm) s

/-- R110. -/
def execSlt (rd rs rt : RegIdx) (s : State) : Result :=
  writeBack rd (boolWord (signedLess (s.reg rs) (s.reg rt))) s

/-- R111. -/
def execSlti (rt rs : RegIdx) (imm : Imm16) (s : State) : Result :=
  writeBack rt (boolWord (signedLess (s.reg rs) (sext imm))) s

/-- R112: the immediate is sign-extended, then the comparison is unsigned (conflict C8). -/
def execSltiu (rt rs : RegIdx) (imm : Imm16) (s : State) : Result :=
  writeBack rt (boolWord (unsignedLess (s.reg rs) (sext imm))) s

/-- R113. -/
def execSltu (rd rs rt : RegIdx) (s : State) : Result :=
  writeBack rd (boolWord (unsignedLess (s.reg rs) (s.reg rt))) s

/-- R114. -/
def execSub (rd rs rt : RegIdx) (s : State) : Result :=
  writeChecked rd ((s.reg rs).toInt - (s.reg rt).toInt) s

/-- R115. -/
def execSubu (rd rs rt : RegIdx) (s : State) : Result :=
  writeBack rd (s.reg rs - s.reg rt) s

/-- R116. -/
def execXor (rd rs rt : RegIdx) (s : State) : Result :=
  writeBack rd (s.reg rs ^^^ s.reg rt) s

/-- R117. -/
def execXori (rt rs : RegIdx) (imm : Imm16) (s : State) : Result :=
  writeBack rt (s.reg rs ^^^ zext imm) s

end Sys2Proof.Machine
end

