-- ==== Sys2Proof/Machine/BranchJump.lean ====
section
/-! DEFINITION. Branches and jumps (R132 to R145). There is no delay slot (R130). -/

namespace Sys2Proof.Machine

open Sys2Proof

/-- A conditional branch: to the target when taken, else only `pc <- npc` (R131). -/
def branch (taken : Bool) (imm : Imm16) (s : State) : Result :=
  .next (s.setPc (if taken then branchTarget s imm else s.npc))

/-- A conditional branch that links, and only when taken (R136); the condition was read first. -/
def branchLink (taken : Bool) (imm : Imm16) (s : State) : Result :=
  if taken then .next ((s.setReg raReg s.npc).setPc (branchTarget s imm))
  else .next s.advance

/-- R132. -/
def execBeq (rs rt : RegIdx) (imm : Imm16) (s : State) : Result :=
  branch (decide (s.reg rs = s.reg rt)) imm s

/-- R133. -/
def execBgez (rs : RegIdx) (imm : Imm16) (s : State) : Result :=
  branch (decide (0 ≤ (s.reg rs).toInt)) imm s

/-- R134, R136. -/
def execBgezal (rs : RegIdx) (imm : Imm16) (s : State) : Result :=
  branchLink (decide (0 ≤ (s.reg rs).toInt)) imm s

/-- R135. -/
def execBgtz (rs : RegIdx) (imm : Imm16) (s : State) : Result :=
  branch (decide (0 < (s.reg rs).toInt)) imm s

/-- R137. -/
def execBlez (rs : RegIdx) (imm : Imm16) (s : State) : Result :=
  branch (decide ((s.reg rs).toInt ≤ 0)) imm s

/-- R138, R136. -/
def execBltzal (rs : RegIdx) (imm : Imm16) (s : State) : Result :=
  branchLink (decide ((s.reg rs).toInt < 0)) imm s

/-- R139. -/
def execBltz (rs : RegIdx) (imm : Imm16) (s : State) : Result :=
  branch (decide ((s.reg rs).toInt < 0)) imm s

/-- R140. -/
def execBne (rs rt : RegIdx) (imm : Imm16) (s : State) : Result :=
  branch (decide (s.reg rs ≠ s.reg rt)) imm s

/-- R141. -/
def execJ (imm : Imm26) (s : State) : Result := .next (s.setPc (jumpTarget s imm))

/-- R142. -/
def execJal (imm : Imm26) (s : State) : Result :=
  .next ((s.setReg raReg s.npc).setPc (jumpTarget s imm))

/-- R143; R144 where `rs = rd` and they are not 0. -/
def execJalr (rd rs : RegIdx) (s : State) : Result :=
  if rs = rd ∧ rd ≠ 0 then raise (.unpredictable s.pc) s
  else .next ((s.setReg rd s.npc).setPc (s.reg rs))

/-- R145; a misaligned target shows at the next fetch (R146). -/
def execJr (rs : RegIdx) (s : State) : Result := .next (s.setPc (s.reg rs))

end Sys2Proof.Machine
end

