-- ==== Sys2Proof/Machine/LoadStore.lean ====
section
/-! DEFINITION. Loads and stores (R180 to R196). Each forms its effective address, checks alignment,
then that the bytes exist, and only then acts (R180). -/

namespace Sys2Proof.Machine

open Sys2Proof

/-- R181. -/
def execLb (rt : RegIdx) (offset : Imm16) (rs : RegIdx) (s : State) : Result :=
  let ea := effAddr s rs offset
  access .load 1 ea ea 1 s (writeBack rt ((s.byte ea).signExtend 32) s)

/-- R182. -/
def execLbu (rt : RegIdx) (offset : Imm16) (rs : RegIdx) (s : State) : Result :=
  let ea := effAddr s rs offset
  access .load 1 ea ea 1 s (writeBack rt ((s.byte ea).zeroExtend 32) s)

/-- R183. -/
def execLh (rt : RegIdx) (offset : Imm16) (rs : RegIdx) (s : State) : Result :=
  let ea := effAddr s rs offset
  access .load 2 ea ea 2 s (writeBack rt ((s.readHalf ea).signExtend 32) s)

/-- R184. -/
def execLhu (rt : RegIdx) (offset : Imm16) (rs : RegIdx) (s : State) : Result :=
  let ea := effAddr s rs offset
  access .load 2 ea ea 2 s (writeBack rt ((s.readHalf ea).zeroExtend 32) s)

/-- R185. -/
def execLw (rt : RegIdx) (offset : Imm16) (rs : RegIdx) (s : State) : Result :=
  let ea := effAddr s rs offset
  access .load 4 ea ea 4 s (writeBack rt (s.readWord ea) s)

/-- R187. -/
def execLwl (rt : RegIdx) (offset : Imm16) (rs : RegIdx) (s : State) : Result :=
  let ea := effAddr s rs offset
  let span := leftSpan s.params.bigEndian ea
  access .load 1 ea span.1 span.2 s (writeBack rt (leftMerge s ea (s.reg rt)) s)

/-- R188. -/
def execLwr (rt : RegIdx) (offset : Imm16) (rs : RegIdx) (s : State) : Result :=
  let ea := effAddr s rs offset
  let span := rightSpan s.params.bigEndian ea
  access .load 1 ea span.1 span.2 s (writeBack rt (rightMerge s ea (s.reg rt)) s)

/-- R190. -/
def execSb (rt : RegIdx) (offset : Imm16) (rs : RegIdx) (s : State) : Result :=
  let ea := effAddr s rs offset
  access .store 1 ea ea 1 s (storeBack (storeBytes s.params.bigEndian ea 1 (s.reg rt)) s)

/-- R191. -/
def execSh (rt : RegIdx) (offset : Imm16) (rs : RegIdx) (s : State) : Result :=
  let ea := effAddr s rs offset
  access .store 2 ea ea 2 s (storeBack (storeBytes s.params.bigEndian ea 2 (s.reg rt)) s)

/-- R192. -/
def execSw (rt : RegIdx) (offset : Imm16) (rs : RegIdx) (s : State) : Result :=
  let ea := effAddr s rs offset
  access .store 4 ea ea 4 s (storeBack (storeBytes s.params.bigEndian ea 4 (s.reg rt)) s)

/-- R193. -/
def execSwl (rt : RegIdx) (offset : Imm16) (rs : RegIdx) (s : State) : Result :=
  let ea := effAddr s rs offset
  let span := leftSpan s.params.bigEndian ea
  access .store 1 ea span.1 span.2 s
    (storeBack (leftStore s.params.bigEndian ea (s.reg rt)) s)

/-- R194. -/
def execSwr (rt : RegIdx) (offset : Imm16) (rs : RegIdx) (s : State) : Result :=
  let ea := effAddr s rs offset
  let span := rightSpan s.params.bigEndian ea
  access .store 1 ea span.1 span.2 s
    (storeBack (rightStore s.params.bigEndian ea (s.reg rt)) s)

end Sys2Proof.Machine
end

