-- ==== Sys2Proof/Machine/MulDiv.lean ====
section
/-! DEFINITION. Multiply, divide and the HIGH and LOW registers (R160 to R170). -/

namespace Sys2Proof.Machine

open Sys2Proof

/-- The upper 32 bits of a 64-bit product. -/
def upperHalf (p : BitVec 64) : Word := p.extractLsb' 32 32

/-- The lower 32 bits of a 64-bit product. -/
def lowerHalf (p : BitVec 64) : Word := p.extractLsb' 0 32

/-- `DivOverflow`: HI and LO of -2^31 divided by -1, as R162 decides them (assumption 11). -/
def divOverflow : Word × Word := (0, 0x80000000#32)

/-- R163: the quotient is rounded toward zero; R161 for a zero divisor; R162 for -2^31 by -1. -/
def execDiv (rs rt : RegIdx) (s : State) : Result :=
  let n := (s.reg rs).toInt
  let d := (s.reg rt).toInt
  if d = 0 then .next s.drawHiLo.advance
  else if n = -2 ^ 31 ∧ d = -1 then writeHiLo divOverflow.1 divOverflow.2 s
  else writeHiLo (BitVec.ofInt 32 (n - n.tdiv d * d)) (BitVec.ofInt 32 (n.tdiv d)) s

/-- R164; R161 for a zero divisor. -/
def execDivu (rs rt : RegIdx) (s : State) : Result :=
  let n := (s.reg rs).toNat
  let d := (s.reg rt).toNat
  if d = 0 then .next s.drawHiLo.advance
  else writeHiLo (BitVec.ofNat 32 (n - n / d * d)) (BitVec.ofNat 32 (n / d)) s

/-- R165. -/
def execMfhi (rd : RegIdx) (s : State) : Result := writeBack rd s.hi s

/-- R166. -/
def execMflo (rd : RegIdx) (s : State) : Result := writeBack rd s.lo s

/-- R167: LO is unchanged. -/
def execMthi (rs : RegIdx) (s : State) : Result := .next (s.setHi (s.reg rs)).advance

/-- R168: HI is unchanged. -/
def execMtlo (rs : RegIdx) (s : State) : Result := .next (s.setLo (s.reg rs)).advance

/-- R169: the exact signed product modulo 2^64. -/
def execMult (rs rt : RegIdx) (s : State) : Result :=
  let p := BitVec.ofInt 64 ((s.reg rs).toInt * (s.reg rt).toInt)
  writeHiLo (upperHalf p) (lowerHalf p) s

/-- R170: the exact unsigned product. -/
def execMultu (rs rt : RegIdx) (s : State) : Result :=
  let p := BitVec.ofNat 64 ((s.reg rs).toNat * (s.reg rt).toNat)
  writeHiLo (upperHalf p) (lowerHalf p) s

end Sys2Proof.Machine
end

