-- ==== Sys2Proof/Machine/Shift.lean ====
section
/-! DEFINITION. Shifts (R210 to R215): the value shifted is `x[rt]` and the destination `x[rd]`. -/

namespace Sys2Proof.Machine

open Sys2Proof

/-- R210. -/
def execSll (rd rt : RegIdx) (sa : Nat) (s : State) : Result :=
  writeBack rd (s.reg rt <<< sa) s

/-- R211. -/
def execSllv (rd rt rs : RegIdx) (s : State) : Result :=
  writeBack rd (s.reg rt <<< shiftAmount s rs) s

/-- R212. -/
def execSra (rd rt : RegIdx) (sa : Nat) (s : State) : Result :=
  writeBack rd ((s.reg rt).sshiftRight sa) s

/-- R213. -/
def execSrav (rd rt rs : RegIdx) (s : State) : Result :=
  writeBack rd ((s.reg rt).sshiftRight (shiftAmount s rs)) s

/-- R214. -/
def execSrl (rd rt : RegIdx) (sa : Nat) (s : State) : Result :=
  writeBack rd (s.reg rt >>> sa) s

/-- R215. -/
def execSrlv (rd rt rs : RegIdx) (s : State) : Result :=
  writeBack rd (s.reg rt >>> shiftAmount s rs) s

end Sys2Proof.Machine
end

