-- ==== Sys2Proof/Machine/System.lean ====
section
/-! DEFINITION. The system call (R220, R221). -/

namespace Sys2Proof.Machine

open Sys2Proof

/-- R220: the instruction changes nothing itself and hands the trap to the environment, which may
resume the run at `pc + 4` (R221). -/
def execSyscall (s : State) : Result := raise (.syscall s.pc) s

end Sys2Proof.Machine
end

