-- ==== Sys2Proof/Machine/Step.lean ====
section
/-! DEFINITION. One step of the machine (R11), and the placing of an instruction where it fetches. -/

namespace Sys2Proof.Machine

open Sys2Proof

/-- R11: the fetch's alignment, whether the address exists, the word, the decoder, the instruction's
rule; R236 fixes this order. -/
def step (s : State) : Host.Outcome State Fault Refusal :=
  access .fetch 4 s.pc s.pc 4 s
    (match decodeWord (s.readWord s.pc) with
    | .ok i => exec i s
    | .error _ => raise (.reservedInstruction (s.readWord s.pc) s.pc) s)

/-- `s` with the instruction whose bits are `w` stored at `pc` in the byte order of the run (R45).
It stands for the loading of a program, which happens outside the machine (assumption 15). -/
def State.withFetchWord (s : State) (nbits w : Nat) : State :=
  s.memWrite s.pc 4 (tableWord nbits w)

end Sys2Proof.Machine
end

