-- ==== Sys2Proof/Safety.lean ====
section
/-! DEFINITION. The terms claims are stated in: what an instruction changes and what it leaves, the
invariant, the start of a run, and the runs R57 would have a reader refuse. -/

namespace Sys2Proof.Safety

open Sys2Proof Sys2Proof.Machine

/-! ### What stays -/

/-- Every general register reads as before. -/
def SameRegs (s t : State) : Prop := ∀ q : RegIdx, t.reg q = s.reg q

/-- HI and LO are as before. -/
def SameHiLo (s t : State) : Prop := t.hi = s.hi ∧ t.lo = s.lo

/-- Every byte of memory reads as before. -/
def SameBytes (s t : State) : Prop := ∀ a : Word, t.byte a = s.byte a

/-- The parameters, the environment's answers and the counts are as before. -/
def SameModel (s t : State) : Prop :=
  t.params = s.params ∧ t.env = s.env ∧ t.traps = s.traps ∧ t.draws = s.draws

/-! ### What an instruction does, with its whole frame -/

/-- `x[r] <- v`, `pc <- npc`, and nothing else; nothing is written when `r` is 0 (R21). -/
def WritesReg (r : RegIdx) (v : Word) (s t : State) : Prop :=
  t.pc = s.pc + 4 ∧ (∀ q : RegIdx, t.reg q = if q = r ∧ r ≠ 0 then v else s.reg q) ∧
  SameHiLo s t ∧ SameBytes s t ∧ SameModel s t

/-- `HI <- h`, `LO <- l`, `pc <- npc`, and nothing else. -/
def WritesHiLo (h l : Word) (s t : State) : Prop :=
  t.pc = s.pc + 4 ∧ SameRegs s t ∧ t.hi = h ∧ t.lo = l ∧ SameBytes s t ∧ SameModel s t

/-- `pc <- p` and nothing else. -/
def GoesTo (p : Word) (s t : State) : Prop :=
  t.pc = p ∧ SameRegs s t ∧ SameHiLo s t ∧ SameBytes s t ∧ SameModel s t

/-- `x[r] <- pc + 4`, `pc <- p`, and nothing else. -/
def LinksAndGoesTo (r : RegIdx) (p : Word) (s t : State) : Prop :=
  t.pc = p ∧ (∀ q : RegIdx, t.reg q = if q = r ∧ r ≠ 0 then s.pc + 4 else s.reg q) ∧
  SameHiLo s t ∧ SameBytes s t ∧ SameModel s t

/-- `pc <- npc`, and no change but to the bytes at the addresses `stored` holds of. -/
def ChangesOnlyBytes (stored : Word → Prop) (s t : State) : Prop :=
  t.pc = s.pc + 4 ∧ SameRegs s t ∧ SameHiLo s t ∧
  (∀ a : Word, ¬ stored a → t.byte a = s.byte a) ∧ SameModel s t

/-- The run goes on at `p` from `s`, the state before the trap, with the changes of the answer `r` and
no other (R232, R233): each register and byte the answer writes holds the last value it writes there
(but register 0, R21), and every other one is as before. -/
def ResumesWith (p : Word) (r : Resume) (s t : State) : Prop :=
  t.pc = p ∧ t.hi = r.hi.getD s.hi ∧ t.lo = r.lo.getD s.lo ∧
  (∀ q, (∀ w ∈ r.regs, w.1 ≠ q) → t.reg q = s.reg q) ∧
  (∀ before q v after, r.regs = before ++ (q, v) :: after → (∀ w ∈ after, w.1 ≠ q) →
    t.reg q = if q = 0 then 0 else v) ∧
  (∀ a, (∀ w ∈ r.bytes, w.1 ≠ a) → t.byte a = s.byte a) ∧
  (∀ before a b after, r.bytes = before ++ (a, b) :: after → (∀ w ∈ after, w.1 ≠ a) →
    t.byte a = b) ∧
  t.params = s.params ∧ t.draws = s.draws ∧ t.env = s.env.tail ∧ t.traps = s.traps + 1

/-- `a` is one of the `n` bytes that start at `base`. -/
def InSpan (base : Word) (n : Nat) (a : Word) : Prop := (a - base).toNat < n

/-! ### What each instruction may write, as the spec lists it -/

/-- The general register an instruction writes: the one its syntax names first (R77), or `$ra` for the
linking transfers (R24). -/
def destReg : Instr → Option RegIdx
  | .add rd _ _ | .addu rd _ _ | .and rd _ _ | .nor rd _ _ | .or rd _ _ | .slt rd _ _
  | .sltu rd _ _ | .sub rd _ _ | .subu rd _ _ | .xor rd _ _ => some rd
  | .addi rt _ _ | .addiu rt _ _ | .andi rt _ _ | .ori rt _ _ | .slti rt _ _ | .sltiu rt _ _
  | .xori rt _ _ => some rt
  | .lui rt _ => some rt
  | .beq .. | .bgez .. | .bgtz .. | .blez .. | .bltz .. | .bne .. | .j .. | .jr .. => none
  | .bgezal .. | .bltzal .. | .jal .. => some 31
  | .jalr rd _ => some rd
  | .div .. | .divu .. | .mthi .. | .mtlo .. | .mult .. | .multu .. => none
  | .mfhi rd | .mflo rd => some rd
  | .lb rt _ _ | .lbu rt _ _ | .lh rt _ _ | .lhu rt _ _ | .lw rt _ _ | .lwl rt _ _
  | .lwr rt _ _ => some rt
  | .sb .. | .sh .. | .sw .. | .swl .. | .swr .. => none
  | .sll rd _ _ | .sra rd _ _ | .srl rd _ _ => some rd
  | .sllv rd _ _ | .srav rd _ _ | .srlv rd _ _ => some rd
  | .syscall => none

/-- The first address and the number of bytes a store writes, computed as its meaning computes them
(R190 to R194); no other instruction writes memory (R33). -/
def storeSpan (s : State) : Instr → Option (Word × Nat)
  | .sb _ offset rs => some (effAddr s rs offset, 1)
  | .sh _ offset rs => some (effAddr s rs offset, 2)
  | .sw _ offset rs => some (effAddr s rs offset, 4)
  | .swl _ offset rs => some (leftSpan s.params.bigEndian (effAddr s rs offset))
  | .swr _ offset rs => some (rightSpan s.params.bigEndian (effAddr s rs offset))
  | .add .. | .addi .. | .addiu .. | .addu .. | .and .. | .andi .. | .lui .. | .nor .. | .or ..
  | .ori .. | .slt .. | .slti .. | .sltiu .. | .sltu .. | .sub .. | .subu .. | .xor .. | .xori ..
  | .beq .. | .bgez .. | .bgezal .. | .bgtz .. | .blez .. | .bltzal .. | .bltz .. | .bne ..
  | .j .. | .jal .. | .jalr .. | .jr .. | .div .. | .divu .. | .mfhi .. | .mflo .. | .mthi ..
  | .mtlo .. | .mult .. | .multu .. | .lb .. | .lbu .. | .lh .. | .lhu .. | .lw .. | .lwl ..
  | .lwr .. | .sll .. | .sllv .. | .sra .. | .srav .. | .srl .. | .srlv .. | .syscall => none

/-- The row of the opcode table an instruction belongs to (R80), by its mnemonic. -/
def mnemonic : Instr → String
  | .add .. => "add"
  | .addi .. => "addi"
  | .addiu .. => "addiu"
  | .addu .. => "addu"
  | .and .. => "and"
  | .andi .. => "andi"
  | .lui .. => "lui"
  | .nor .. => "nor"
  | .or .. => "or"
  | .ori .. => "ori"
  | .slt .. => "slt"
  | .slti .. => "slti"
  | .sltiu .. => "sltiu"
  | .sltu .. => "sltu"
  | .sub .. => "sub"
  | .subu .. => "subu"
  | .xor .. => "xor"
  | .xori .. => "xori"
  | .beq .. => "beq"
  | .bgez .. => "bgez"
  | .bgezal .. => "bgezal"
  | .bgtz .. => "bgtz"
  | .blez .. => "blez"
  | .bltzal .. => "bltzal"
  | .bltz .. => "bltz"
  | .bne .. => "bne"
  | .j .. => "j"
  | .jal .. => "jal"
  | .jalr .. => "jalr"
  | .jr .. => "jr"
  | .div .. => "div"
  | .divu .. => "divu"
  | .mfhi .. => "mfhi"
  | .mflo .. => "mflo"
  | .mthi .. => "mthi"
  | .mtlo .. => "mtlo"
  | .mult .. => "mult"
  | .multu .. => "multu"
  | .lb .. => "lb"
  | .lbu .. => "lbu"
  | .lh .. => "lh"
  | .lhu .. => "lhu"
  | .lw .. => "lw"
  | .lwl .. => "lwl"
  | .lwr .. => "lwr"
  | .sb .. => "sb"
  | .sh .. => "sh"
  | .sw .. => "sw"
  | .swl .. => "swl"
  | .swr .. => "swr"
  | .sll .. => "sll"
  | .sllv .. => "sllv"
  | .sra .. => "sra"
  | .srav .. => "srav"
  | .srl .. => "srl"
  | .srlv .. => "srlv"
  | .syscall => "syscall"

/-- The first rows of `spec/opcode_table.json`: mnemonic, `mask` and `match` (R80). -/
def opcodeRowsA : List (String × Word × Word) := [
  ("add", 0xFC0007FF#32, 0x00000020#32),
  ("addi", 0xFC000000#32, 0x20000000#32),
  ("addiu", 0xFC000000#32, 0x24000000#32),
  ("addu", 0xFC0007FF#32, 0x00000021#32),
  ("and", 0xFC0007FF#32, 0x00000024#32),
  ("andi", 0xFC000000#32, 0x30000000#32),
  ("beq", 0xFC000000#32, 0x10000000#32),
  ("bgez", 0xFC1F0000#32, 0x04010000#32),
  ("bgezal", 0xFC1F0000#32, 0x04110000#32),
  ("bgtz", 0xFC1F0000#32, 0x1C000000#32),
  ("blez", 0xFC1F0000#32, 0x18000000#32),
  ("bltzal", 0xFC1F0000#32, 0x04100000#32),
  ("bltz", 0xFC1F0000#32, 0x04000000#32),
  ("bne", 0xFC000000#32, 0x14000000#32),
  ("div", 0xFC00FFFF#32, 0x0000001A#32),
  ("divu", 0xFC00FFFF#32, 0x0000001B#32),
  ("j", 0xFC000000#32, 0x08000000#32),
  ("jal", 0xFC000000#32, 0x0C000000#32),
  ("jalr", 0xFC1F07FF#32, 0x00000009#32),
  ("jr", 0xFC1FFFFF#32, 0x00000008#32),
  ("lb", 0xFC000000#32, 0x80000000#32),
  ("lbu", 0xFC000000#32, 0x90000000#32),
  ("lh", 0xFC000000#32, 0x84000000#32),
  ("lhu", 0xFC000000#32, 0x94000000#32),
  ("lui", 0xFFE00000#32, 0x3C000000#32),
  ("lw", 0xFC000000#32, 0x8C000000#32),
  ("lwl", 0xFC000000#32, 0x88000000#32),
  ("lwr", 0xFC000000#32, 0x98000000#32)]

/-- The other rows of `spec/opcode_table.json`. -/
def opcodeRowsB : List (String × Word × Word) := [
  ("mfhi", 0xFFFF07FF#32, 0x00000010#32),
  ("mflo", 0xFFFF07FF#32, 0x00000012#32),
  ("mthi", 0xFC1FFFFF#32, 0x00000011#32),
  ("mtlo", 0xFC1FFFFF#32, 0x00000013#32),
  ("mult", 0xFC00FFFF#32, 0x00000018#32),
  ("multu", 0xFC00FFFF#32, 0x00000019#32),
  ("nor", 0xFC0007FF#32, 0x00000027#32),
  ("or", 0xFC0007FF#32, 0x00000025#32),
  ("ori", 0xFC000000#32, 0x34000000#32),
  ("sb", 0xFC000000#32, 0xA0000000#32),
  ("sh", 0xFC000000#32, 0xA4000000#32),
  ("sll", 0xFFE0003F#32, 0x00000000#32),
  ("sllv", 0xFC0007FF#32, 0x00000004#32),
  ("slt", 0xFC0007FF#32, 0x0000002A#32),
  ("slti", 0xFC000000#32, 0x28000000#32),
  ("sltiu", 0xFC000000#32, 0x2C000000#32),
  ("sltu", 0xFC0007FF#32, 0x0000002B#32),
  ("sra", 0xFFE0003F#32, 0x00000003#32),
  ("srav", 0xFC0007FF#32, 0x00000007#32),
  ("srl", 0xFFE0003F#32, 0x00000002#32),
  ("srlv", 0xFC0007FF#32, 0x00000006#32),
  ("sub", 0xFC0007FF#32, 0x00000022#32),
  ("subu", 0xFC0007FF#32, 0x00000023#32),
  ("sw", 0xFC000000#32, 0xAC000000#32),
  ("swl", 0xFC000000#32, 0xA8000000#32),
  ("swr", 0xFC000000#32, 0xB8000000#32),
  ("syscall", 0xFFFFFFFF#32, 0x0000000C#32),
  ("xor", 0xFC0007FF#32, 0x00000026#32),
  ("xori", 0xFC000000#32, 0x38000000#32)]

/-- The opcode table. A word is a row's instruction exactly when `word & mask = match` (R80). -/
def opcodeRows : List (String × Word × Word) := opcodeRowsA ++ opcodeRowsB

/-! ### Invariant, start and runs -/

/-- The memory is in its canonical form, so that equal memories are equal data. -/
def Canonical (s : State) : Prop := Memory.wf s.mem

/-- A start of a run at `entry` that R261 (1) admits: `pc` is ENTRY (R35), a multiple of 4, and the
word there can be fetched. -/
def StartOfRun (entry : Word) (s : State) : Prop :=
  s.pc = entry ∧ entry.toNat % 4 = 0 ∧ s.memValid entry 4 .fetch = true

/-- The addresses of the bytes an instruction stores. -/
def storedAddresses (i : Instr) (s : State) : List Word :=
  match storeSpan s i with
  | some (base, n) => (List.range n).map fun k => base + BitVec.ofNat 32 k
  | none => []

/-- The step from `s` fetches: `pc` is aligned and the address exists (R11). -/
def fetches (s : State) : Bool := decide (s.pc.toNat % 4 = 0) && s.memValid s.pc 4 .fetch

/-- The addresses the step from `s` to `t` stored to. A step that was a trap, resumed by the
environment, stored nothing (R233). -/
def storedBy (s t : State) : List Word :=
  if t.traps = s.traps then
    match decodeWord (s.readWord s.pc) with
    | .ok i => storedAddresses i s
    | .error _ => []
  else []

/-- One of the next `k` steps fetches a byte that this run stored before (`stored` holds the addresses
so far), whether or not steps between were traps the environment resumed from. R57 gives such a run
its meaning, and the model follows it, but advises a reader to refuse it: a claim that should carry
over to silicon with an instruction cache excludes it (assumption 14). -/
def fetchesStored : Nat → List Word → State → Bool
  | 0, _, _ => false
  | k + 1, stored, s =>
    if fetches s && [s.pc, s.pc + 1, s.pc + 2, s.pc + 3].any stored.contains then true
    else
      match step s with
      | .next t => fetchesStored k (storedBy s t ++ stored) t
      | .fault _ => false
      | .refused _ => false

end Sys2Proof.Safety
end

