-- ==== Sys2Proof/Certificates/Slice0/Obligations.lean ====
section
/-! DEFINITION. The statements for the provers. Each docstring names the rule of spec/ it formalises;
where it rests on the model's own choice it names the assumption. -/

open Sys2Proof Sys2Proof.Machine Sys2Proof.Safety

/-! ### The step and the decoder -/

/-- R11 (3) to (5), R45: where the fetch is aligned and the address exists, the step is the meaning of
the instruction that the four bytes at `pc`, in the byte order of the run, decode to. The step adds
nothing around `exec`. -/
def Obligations.StepRunsDecodedInstruction : Prop :=
  ∀ (s : State) (i : Instr), s.pc.toNat % 4 = 0 → s.memValid s.pc 4 .fetch = true →
    decodeWord (if s.params.bigEndian
      then s.byte s.pc ++ s.byte (s.pc + 1) ++ s.byte (s.pc + 2) ++ s.byte (s.pc + 3)
      else s.byte (s.pc + 3) ++ s.byte (s.pc + 2) ++ s.byte (s.pc + 1) ++ s.byte s.pc) = .ok i →
    step s = exec i s

/-- R11, R236 (the spec's own decisions D8, D9, D13): the step's events in their order. A misaligned `pc` traps, whether or not the address
exists; then an address that cannot be fetched faults; then a word that is no instruction faults;
else the step is the instruction's meaning. -/
def Obligations.StepEventsComeInOrder : Prop :=
  ∀ s : State,
    (s.pc.toNat % 4 ≠ 0 → step s = raise (.addressError .fetch s.pc s.pc) s) ∧
    (s.pc.toNat % 4 = 0 → s.memValid s.pc 4 .fetch = false →
      step s = .fault (.busFault .fetch s.pc s.pc)) ∧
    (s.pc.toNat % 4 = 0 → s.memValid s.pc 4 .fetch = true →
      (∀ e, decodeWord (s.readWord s.pc) = .error e →
        step s = .fault (.reservedInstruction (s.readWord s.pc) s.pc)) ∧
      (∀ i, decodeWord (s.readWord s.pc) = .ok i → step s = exec i s))

/-- The spec's own example words decode to the instructions it gives them (R100, R101, R134, R142,
R187, R210, R220), one for each layout of R72 to R75 and one with a constant shift amount. -/
def Obligations.ExampleWordsDecode : Prop :=
  decodeWord 0x01095020#32 = .ok (.add 10 8 9) ∧
  decodeWord 0x2109FFFF#32 = .ok (.addi 9 8 0xFFFF) ∧
  decodeWord 0x05110004#32 = .ok (.bgezal 8 4) ∧
  decodeWord 0x0C100040#32 = .ok (.jal 0x100040) ∧
  decodeWord 0x89090000#32 = .ok (.lwl 9 0 8) ∧
  decodeWord 0x00084FC0#32 = .ok (.sll 9 8 31) ∧
  decodeWord 0x0000000C#32 = .ok .syscall

/-- R80: every well-formed instruction, with every operand at every value its field admits, is what
its encoding decodes to. -/
def Obligations.DecodeInvertsEncode : Prop :=
  ∀ i : Instr, i.wellFormed = true → decodeWord (encode i) = .ok i

/-- R80, R90: a word that decodes is exactly the encoding of the instruction it decodes to, so that no
bit of it is ignored, and that instruction is well formed. -/
def Obligations.EncodeInvertsDecode : Prop :=
  ∀ (w : Word) (i : Instr), decodeWord w = .ok i → i.wellFormed = true ∧ encode i = w

/-- R80, R89, R90 (strict decoding is the spec's decision D9): a word decodes to an instruction of a given mnemonic exactly when it matches the
row of the opcode table with that mnemonic, must-be-zero fields included; a word that matches no row
is refused. -/
def Obligations.DecoderFollowsOpcodeTable : Prop :=
  ∀ (w : Word) (m : String),
    (∃ i, decodeWord w = .ok i ∧ mnemonic i = m) ↔
    ∃ row ∈ opcodeRows, row.1 = m ∧ w &&& row.2.1 = row.2.2

/-! ### Reset and invariants -/

/-- R35, R260 for what the spec gives: the run starts at a multiple of 4 and register 0 is 0. That the
word at `pc` can be fetched is R261's demand on a start. Which entry, registers, byte order, memory
map and memory contents the model starts from are its own choice (assumptions 1 to 6). -/
def Obligations.ResetStartsARun : Prop :=
  StartOfRun State.reset.pc State.reset ∧ State.reset.reg 0 = 0

/-- The memory right after reset is in its canonical form (the model's representation of R33). -/
def Obligations.ResetMemoryIsCanonical : Prop := Canonical State.reset

/-- The memory's canonical form (the model's representation of R33) is kept by every step, from every
state that has it. -/
def Obligations.StepKeepsMemoryCanonical : Prop :=
  ∀ s t : State, Canonical s → step s = .next t → Canonical t

/-- R40: the byte order is fixed for a whole run, and so is the memory map (R52): no step, not even one
the environment answers, changes a parameter. -/
def Obligations.StepKeepsParameters : Prop :=
  ∀ s t : State, step s = .next t → t.params = s.params

/-- No step is refused: each answers a next state or one of the events of R230. It says no more; what
each instruction does, and where it stops (R144 among others), other statements say. -/
def Obligations.StepNeverRefuses : Prop := ∀ (s : State) (r : Refusal), step s ≠ .refused r

/-- R21 (the spec's decision D3): register 0 reads as 0 in every state and a write to it leaves the
state as it is; every other register reads as what was last written to it (R20, decision D2). -/
def Obligations.RegisterZeroIsHardwired : Prop :=
  ∀ (s : State) (v : Word), s.reg 0 = 0 ∧ s.setReg 0 v = s ∧
    ∀ r q : RegIdx, r ≠ 0 → (s.setReg r v).reg q = if q = r then v else s.reg q

/-! ### What any instruction may change -/

/-- R24: an instruction writes no general register but the one its syntax names as destination, or
`$ra` for the linking transfers. A step that was a trap, resumed by the environment (which is then
counted, assumption 8), is not meant: there the environment writes what it likes (R221). -/
def Obligations.OnlyDestinationRegisterChanges : Prop :=
  ∀ (i : Instr) (s t : State), exec i s = .next t → t.traps = s.traps →
    ∀ q : RegIdx, destReg i ≠ some q → t.reg q = s.reg q

/-- R29: no instruction but `mult`, `multu`, `div`, `divu` and `mthi` writes HI, and none but the first
four and `mtlo` writes LO. -/
def Obligations.OnlyMulDivAndMovesWriteHiLo : Prop :=
  ∀ (i : Instr) (s t : State), exec i s = .next t → t.traps = s.traps →
    (mnemonic i ∉ ["mult", "multu", "div", "divu", "mthi"] → t.hi = s.hi) ∧
    (mnemonic i ∉ ["mult", "multu", "div", "divu", "mtlo"] → t.lo = s.lo)

/-- R33, R49: an instruction that is no store changes no byte of memory, and a store changes none
outside the bytes its own address computation names. -/
def Obligations.OnlyStoresChangeMemory : Prop :=
  ∀ (i : Instr) (s t : State), exec i s = .next t → t.traps = s.traps →
    (storeSpan s i = none → SameBytes s t) ∧
    ∀ (base : Word) (n : Nat), storeSpan s i = some (base, n) →
      ∀ a : Word, ¬ InSpan base n a → t.byte a = s.byte a

/-- R27: an instruction that is no branch or jump ends with `pc + 4`. -/
def Obligations.NonTransfersAdvance : Prop :=
  ∀ (i : Instr) (s t : State), exec i s = .next t → t.traps = s.traps →
    mnemonic i ∉ ["beq", "bgez", "bgezal", "bgtz", "blez", "bltzal", "bltz", "bne", "j", "jal",
      "jalr", "jr"] → t.pc = s.pc + 4

/-- R146: only `jr` and `jalr` can take an aligned `pc` to a misaligned one. -/
def Obligations.OnlyRegisterJumpsMisalign : Prop :=
  ∀ (i : Instr) (s t : State), exec i s = .next t → t.traps = s.traps → s.pc.toNat % 4 = 0 →
    mnemonic i ∉ ["jr", "jalr"] → t.pc.toNat % 4 = 0

/-- R231 and R230's information: what each instruction can raise, that it carries the instruction's own
`pc`, and that the instructions R231 leaves under "others" always complete. -/
def Obligations.EventsOfEachInstruction : Prop :=
  ∀ (i : Instr) (s : State),
    (∀ e, exec i s = .fault e →
      match e with
      | .integerOverflow p => p = s.pc ∧ mnemonic i ∈ ["add", "addi", "sub"]
      | .addressError .load _ p => p = s.pc ∧ mnemonic i ∈ ["lh", "lhu", "lw"]
      | .addressError .store _ p => p = s.pc ∧ mnemonic i ∈ ["sh", "sw"]
      | .addressError .fetch _ _ => False
      | .busFault .load _ p =>
        p = s.pc ∧ mnemonic i ∈ ["lh", "lhu", "lw", "lb", "lbu", "lwl", "lwr"]
      | .busFault .store _ p => p = s.pc ∧ mnemonic i ∈ ["sh", "sw", "sb", "swl", "swr"]
      | .busFault .fetch _ _ => False
      | .syscall p => p = s.pc ∧ mnemonic i = "syscall"
      | .unpredictable p => p = s.pc ∧ mnemonic i = "jalr"
      | .reservedInstruction _ _ => False) ∧
    (mnemonic i ∉ ["add", "addi", "sub", "lh", "lhu", "lw", "sh", "sw", "lb", "lbu", "lwl", "lwr",
      "sb", "swl", "swr", "syscall", "jalr"] → ∃ t, exec i s = .next t)

/-! ### Arithmetic, logical, compare, load upper -/

/-- R100, R101, R114: the exact signed result is written when it fits in 32 bits, else the overflow
exception is raised. That it is raised from the unchanged state is the spec's decision D22 (R118,
R233, assumption 7), and the bit-level form of the condition, for `add` and `sub`, is its own
derivation (R118). -/
def Obligations.CheckedArithmeticWritesOrTraps : Prop :=
  ∀ (s : State) (rd rs rt : RegIdx) (imm : Imm16),
    (decodeWord (0b000000#6 ++ rs ++ rt ++ rd ++ 0b00000#5 ++ 0b100000#6) = .ok (.add rd rs rt) ∧
      decodeWord (0b001000#6 ++ rs ++ rt ++ imm) = .ok (.addi rt rs imm) ∧
      decodeWord (0b000000#6 ++ rs ++ rt ++ rd ++ 0b00000#5 ++ 0b100010#6) =
        .ok (.sub rd rs rt)) ∧
    (∀ z : Int, z = (s.reg rs).toInt + (s.reg rt).toInt →
      (z < -2 ^ 31 ∨ 2 ^ 31 - 1 < z ↔ (s.reg rs).msb = (s.reg rt).msb ∧
        (s.reg rs + s.reg rt).msb ≠ (s.reg rs).msb) ∧
      (-2 ^ 31 ≤ z ∧ z ≤ 2 ^ 31 - 1 →
        ∃ v t, exec (.add rd rs rt) s = .next t ∧ WritesReg rd v s t ∧ v.toInt = z) ∧
      (z < -2 ^ 31 ∨ 2 ^ 31 - 1 < z →
        exec (.add rd rs rt) s = raise (.integerOverflow s.pc) s)) ∧
    (∀ z : Int, z = (s.reg rs).toInt + imm.toInt →
      (-2 ^ 31 ≤ z ∧ z ≤ 2 ^ 31 - 1 →
        ∃ v t, exec (.addi rt rs imm) s = .next t ∧ WritesReg rt v s t ∧ v.toInt = z) ∧
      (z < -2 ^ 31 ∨ 2 ^ 31 - 1 < z →
        exec (.addi rt rs imm) s = raise (.integerOverflow s.pc) s)) ∧
    (∀ z : Int, z = (s.reg rs).toInt - (s.reg rt).toInt →
      (z < -2 ^ 31 ∨ 2 ^ 31 - 1 < z ↔ (s.reg rs).msb ≠ (s.reg rt).msb ∧
        (s.reg rs - s.reg rt).msb ≠ (s.reg rs).msb) ∧
      (-2 ^ 31 ≤ z ∧ z ≤ 2 ^ 31 - 1 →
        ∃ v t, exec (.sub rd rs rt) s = .next t ∧ WritesReg rd v s t ∧ v.toInt = z) ∧
      (z < -2 ^ 31 ∨ 2 ^ 31 - 1 < z →
        exec (.sub rd rs rt) s = raise (.integerOverflow s.pc) s))

/-- R118: the exact result does not fit exactly when the bit-level test of the rule holds, for an
addition and for a subtraction. -/
def Obligations.OverflowIsTheBitTest : Prop :=
  ∀ a b : Word,
    (fitsSigned (a.toInt + b.toInt) = false ↔ a.msb = b.msb ∧ (a + b).msb ≠ a.msb) ∧
    (fitsSigned (a.toInt - b.toInt) = false ↔ a.msb ≠ b.msb ∧ (a - b).msb ≠ a.msb)

/-- R102, R103, R115: the result modulo 2^32, the immediate sign-extended, no exception. -/
def Obligations.WrappingArithmeticCompletes : Prop :=
  ∀ (s : State) (rd rs rt : RegIdx) (imm : Imm16),
    (decodeWord (0b001001#6 ++ rs ++ rt ++ imm) = .ok (.addiu rt rs imm) ∧
      decodeWord (0b000000#6 ++ rs ++ rt ++ rd ++ 0b00000#5 ++ 0b100001#6) =
        .ok (.addu rd rs rt) ∧
      decodeWord (0b000000#6 ++ rs ++ rt ++ rd ++ 0b00000#5 ++ 0b100011#6) =
        .ok (.subu rd rs rt)) ∧
    (∃ t, exec (.addiu rt rs imm) s = .next t ∧
      WritesReg rt (BitVec.ofInt 32 ((s.reg rs).toInt + imm.toInt)) s t) ∧
    (∃ t, exec (.addu rd rs rt) s = .next t ∧
      WritesReg rd (BitVec.ofNat 32 ((s.reg rs).toNat + (s.reg rt).toNat)) s t) ∧
    (∃ t, exec (.subu rd rs rt) s = .next t ∧
      WritesReg rd (BitVec.ofInt 32 ((s.reg rs).toNat - (s.reg rt).toNat : Int)) s t)

/-- R119: where `add`, `addi` or `sub` does not trap, its unsigned sibling leaves the very same
state. -/
def Obligations.CheckedAndWrappingAgree : Prop :=
  ∀ (s t : State) (rd rs rt : RegIdx) (imm : Imm16), t.traps = s.traps →
    (exec (.add rd rs rt) s = .next t → exec (.addu rd rs rt) s = .next t) ∧
    (exec (.addi rt rs imm) s = .next t → exec (.addiu rt rs imm) s = .next t) ∧
    (exec (.sub rd rs rt) s = .next t → exec (.subu rd rs rt) s = .next t)

/-- R104, R105, R107, R108, R109, R116, R117: the result bit by bit, a 16-bit immediate with zeros
above it. -/
def Obligations.LogicIsBitwise : Prop :=
  ∀ (s : State) (rd rs rt : RegIdx) (imm : Imm16),
    (decodeWord (0b000000#6 ++ rs ++ rt ++ rd ++ 0b00000#5 ++ 0b100100#6) = .ok (.and rd rs rt) ∧
      decodeWord (0b000000#6 ++ rs ++ rt ++ rd ++ 0b00000#5 ++ 0b100101#6) = .ok (.or rd rs rt) ∧
      decodeWord (0b000000#6 ++ rs ++ rt ++ rd ++ 0b00000#5 ++ 0b100110#6) = .ok (.xor rd rs rt) ∧
      decodeWord (0b000000#6 ++ rs ++ rt ++ rd ++ 0b00000#5 ++ 0b100111#6) = .ok (.nor rd rs rt) ∧
      decodeWord (0b001100#6 ++ rs ++ rt ++ imm) = .ok (.andi rt rs imm) ∧
      decodeWord (0b001101#6 ++ rs ++ rt ++ imm) = .ok (.ori rt rs imm) ∧
      decodeWord (0b001110#6 ++ rs ++ rt ++ imm) = .ok (.xori rt rs imm)) ∧
    (∃ v t, exec (.and rd rs rt) s = .next t ∧ WritesReg rd v s t ∧
      ∀ k < 32, v.getLsbD k = ((s.reg rs).getLsbD k && (s.reg rt).getLsbD k)) ∧
    (∃ v t, exec (.or rd rs rt) s = .next t ∧ WritesReg rd v s t ∧
      ∀ k < 32, v.getLsbD k = ((s.reg rs).getLsbD k || (s.reg rt).getLsbD k)) ∧
    (∃ v t, exec (.xor rd rs rt) s = .next t ∧ WritesReg rd v s t ∧
      ∀ k < 32, v.getLsbD k = ((s.reg rs).getLsbD k ^^ (s.reg rt).getLsbD k)) ∧
    (∃ v t, exec (.nor rd rs rt) s = .next t ∧ WritesReg rd v s t ∧
      ∀ k < 32, v.getLsbD k = !((s.reg rs).getLsbD k || (s.reg rt).getLsbD k)) ∧
    (∃ v t, exec (.andi rt rs imm) s = .next t ∧ WritesReg rt v s t ∧
      ∀ k < 32, v.getLsbD k = ((s.reg rs).getLsbD k && (decide (k < 16) && imm.getLsbD k))) ∧
    (∃ v t, exec (.ori rt rs imm) s = .next t ∧ WritesReg rt v s t ∧
      ∀ k < 32, v.getLsbD k = ((s.reg rs).getLsbD k || (decide (k < 16) && imm.getLsbD k))) ∧
    (∃ v t, exec (.xori rt rs imm) s = .next t ∧ WritesReg rt v s t ∧
      ∀ k < 32, v.getLsbD k = ((s.reg rs).getLsbD k ^^ (decide (k < 16) && imm.getLsbD k)))

/-- R106: the immediate in the upper half, zeros below, whatever the register held. -/
def Obligations.LoadUpperImmediateWrites : Prop :=
  ∀ (s : State) (rt : RegIdx) (imm : Imm16),
    decodeWord (0b001111#6 ++ 0b00000#5 ++ rt ++ imm) = .ok (.lui rt imm) ∧
    ∃ v t, exec (.lui rt imm) s = .next t ∧ WritesReg rt v s t ∧ v.toNat = imm.toNat * 2 ^ 16

/-- R93 (1): `lui` of the upper half and `ori` of the lower half load any 32-bit constant, in any
register but 0, through any register but 0. -/
def Obligations.LuiThenOriLoadsAnyConstant : Prop :=
  ∀ (s : State) (r rt : RegIdx) (c : Word), r ≠ 0 → rt ≠ 0 →
    ∃ t u, exec (.lui r (c.extractLsb' 16 16)) s = .next t ∧
      exec (.ori rt r (c.extractLsb' 0 16)) t = .next u ∧
      u.reg rt = c ∧ u.pc = s.pc + 8 ∧
      (∀ q, q ≠ r → q ≠ rt → u.reg q = s.reg q) ∧ SameHiLo s u ∧ SameBytes s u

/-- R110 to R113: exactly 1 or 0, compared as signed or as unsigned 32-bit numbers, the immediate
sign-extended in both immediate forms. -/
def Obligations.ComparisonsWriteOneOrZero : Prop :=
  ∀ (s : State) (rd rs rt : RegIdx) (imm : Imm16),
    (decodeWord (0b000000#6 ++ rs ++ rt ++ rd ++ 0b00000#5 ++ 0b101010#6) = .ok (.slt rd rs rt) ∧
      decodeWord (0b000000#6 ++ rs ++ rt ++ rd ++ 0b00000#5 ++ 0b101011#6) =
        .ok (.sltu rd rs rt) ∧
      decodeWord (0b001010#6 ++ rs ++ rt ++ imm) = .ok (.slti rt rs imm) ∧
      decodeWord (0b001011#6 ++ rs ++ rt ++ imm) = .ok (.sltiu rt rs imm)) ∧
    (∃ t, exec (.slt rd rs rt) s = .next t ∧
      WritesReg rd (if (s.reg rs).toInt < (s.reg rt).toInt then 1 else 0) s t) ∧
    (∃ t, exec (.slti rt rs imm) s = .next t ∧
      WritesReg rt (if (s.reg rs).toInt < imm.toInt then 1 else 0) s t) ∧
    (∃ t, exec (.sltu rd rs rt) s = .next t ∧
      WritesReg rd (if (s.reg rs).toNat < (s.reg rt).toNat then 1 else 0) s t) ∧
    (∃ t, exec (.sltiu rt rs imm) s = .next t ∧
      WritesReg rt (if (s.reg rs).toNat < (imm.signExtend 32).toNat then 1 else 0) s t)

/-! ### Shifts -/

/-- R210, R212, R214: a constant shift multiplies modulo 2^32, divides with floor as a signed number,
or divides as an unsigned one, for every amount 0 to 31. -/
def Obligations.ConstantShiftsWrite : Prop :=
  ∀ (s : State) (rd rt : RegIdx) (sa : BitVec 5),
    (decodeWord (0b000000#6 ++ 0b00000#5 ++ rt ++ rd ++ sa ++ 0b000000#6) =
        .ok (.sll rd rt sa.toNat) ∧
      decodeWord (0b000000#6 ++ 0b00000#5 ++ rt ++ rd ++ sa ++ 0b000011#6) =
        .ok (.sra rd rt sa.toNat) ∧
      decodeWord (0b000000#6 ++ 0b00000#5 ++ rt ++ rd ++ sa ++ 0b000010#6) =
        .ok (.srl rd rt sa.toNat)) ∧
    (∃ v t, exec (.sll rd rt sa.toNat) s = .next t ∧ WritesReg rd v s t ∧
      v.toNat = (s.reg rt).toNat * 2 ^ sa.toNat % 2 ^ 32) ∧
    (∃ v t, exec (.sra rd rt sa.toNat) s = .next t ∧ WritesReg rd v s t ∧
      v.toInt = (s.reg rt).toInt / 2 ^ sa.toNat) ∧
    (∃ v t, exec (.srl rd rt sa.toNat) s = .next t ∧ WritesReg rd v s t ∧
      v.toNat = (s.reg rt).toNat / 2 ^ sa.toNat)

/-- R211, R213, R215: the same three shifts by the low five bits of `x[rs]`, the bits above
ignored. -/
def Obligations.VariableShiftsUseLowFiveBits : Prop :=
  ∀ (s : State) (rd rt rs : RegIdx),
    (decodeWord (0b000000#6 ++ rs ++ rt ++ rd ++ 0b00000#5 ++ 0b000100#6) =
        .ok (.sllv rd rt rs) ∧
      decodeWord (0b000000#6 ++ rs ++ rt ++ rd ++ 0b00000#5 ++ 0b000111#6) =
        .ok (.srav rd rt rs) ∧
      decodeWord (0b000000#6 ++ rs ++ rt ++ rd ++ 0b00000#5 ++ 0b000110#6) =
        .ok (.srlv rd rt rs)) ∧
    (∃ v t, exec (.sllv rd rt rs) s = .next t ∧ WritesReg rd v s t ∧
      v.toNat = (s.reg rt).toNat * 2 ^ ((s.reg rs).toNat % 32) % 2 ^ 32) ∧
    (∃ v t, exec (.srav rd rt rs) s = .next t ∧ WritesReg rd v s t ∧
      v.toInt = (s.reg rt).toInt / 2 ^ ((s.reg rs).toNat % 32)) ∧
    (∃ v t, exec (.srlv rd rt rs) s = .next t ∧ WritesReg rd v s t ∧
      v.toNat = (s.reg rt).toNat / 2 ^ ((s.reg rs).toNat % 32))

/-- R91: the all-zero word is `sll $zero, $zero, 0` and does nothing but advance `pc`. -/
def Obligations.ZeroWordIsNoOperation : Prop :=
  decodeWord 0#32 = .ok (.sll 0 0 0) ∧
  ∀ s : State, ∃ t, exec (.sll 0 0 0) s = .next t ∧ GoesTo (s.pc + 4) s t

/-! ### Multiply, divide, HIGH and LOW -/

/-- R169, R170: HI and LO together are the exact product, signed or unsigned. -/
def Obligations.MultiplyIsExact : Prop :=
  ∀ (s : State) (rs rt : RegIdx),
    (decodeWord (0b000000#6 ++ rs ++ rt ++ 0b00000#5 ++ 0b00000#5 ++ 0b011000#6) =
        .ok (.mult rs rt) ∧
      decodeWord (0b000000#6 ++ rs ++ rt ++ 0b00000#5 ++ 0b00000#5 ++ 0b011001#6) =
        .ok (.multu rs rt)) ∧
    (∃ h l t, exec (.mult rs rt) s = .next t ∧ WritesHiLo h l s t ∧
      (h ++ l).toInt = (s.reg rs).toInt * (s.reg rt).toInt) ∧
    (∃ h l t, exec (.multu rs rt) s = .next t ∧ WritesHiLo h l s t ∧
      (h ++ l).toNat = (s.reg rs).toNat * (s.reg rt).toNat)

/-- R163: for a divisor that is not 0 and a quotient that fits, LO and HI are the one quotient and
remainder with n = q*d + r, |r| < |d| and a remainder that is 0 or has the dividend's sign. -/
def Obligations.SignedDivisionTruncates : Prop :=
  ∀ (s : State) (rs rt : RegIdx),
    decodeWord (0b000000#6 ++ rs ++ rt ++ 0b00000#5 ++ 0b00000#5 ++ 0b011010#6) =
      .ok (.div rs rt) ∧
    ∀ n d : Int, n = (s.reg rs).toInt → d = (s.reg rt).toInt → d ≠ 0 →
      ¬ (n = -2 ^ 31 ∧ d = -1) →
      ∃ h l t, exec (.div rs rt) s = .next t ∧ WritesHiLo h l s t ∧
        n = l.toInt * d + h.toInt ∧ h.toInt.natAbs < d.natAbs ∧
        (h.toInt = 0 ∨ h.toInt.sign = n.sign)

/-- R162: -2^31 divided by -1 leaves LO = 0x80000000 and HI = 0 (the spec's decision D11, assumption
11), and no exception. -/
def Obligations.DivisionOverflowLeavesDecidedValues : Prop :=
  ∀ (s : State) (rs rt : RegIdx), s.reg rs = 0x80000000#32 → s.reg rt = 0xFFFFFFFF#32 →
    ∃ t, exec (.div rs rt) s = .next t ∧ WritesHiLo 0 0x80000000#32 s t

/-- R164: the unsigned quotient and remainder, for a divisor that is not 0. -/
def Obligations.UnsignedDivisionFloors : Prop :=
  ∀ (s : State) (rs rt : RegIdx),
    decodeWord (0b000000#6 ++ rs ++ rt ++ 0b00000#5 ++ 0b00000#5 ++ 0b011011#6) =
      .ok (.divu rs rt) ∧
    ((s.reg rt).toNat ≠ 0 →
      ∃ h l t, exec (.divu rs rt) s = .next t ∧ WritesHiLo h l s t ∧
        (s.reg rs).toNat = l.toNat * (s.reg rt).toNat + h.toNat ∧
        h.toNat < (s.reg rt).toNat)

/-- R161 (the spec's decision D10): with a zero divisor `div` and `divu` raise nothing and complete; HI and LO take the next two
free values (of which nothing is known, assumption 10), and nothing else changes but `pc` and the
count of draws. It holds for every value of that count. -/
def Obligations.DivisionByZeroDrawsHiLo : Prop :=
  ∀ (s : State) (rs rt : RegIdx), s.reg rt = 0 →
    (∃ t, exec (.div rs rt) s = .next t ∧ t.pc = s.pc + 4 ∧ SameRegs s t ∧ SameBytes s t ∧
      t.hi = Config.freeWord s.draws ∧ t.lo = Config.freeWord (s.draws + 1) ∧
      t.draws = s.draws + 2 ∧ t.params = s.params ∧ t.env = s.env ∧ t.traps = s.traps) ∧
    (∃ t, exec (.divu rs rt) s = .next t ∧ t.pc = s.pc + 4 ∧ SameRegs s t ∧ SameBytes s t ∧
      t.hi = Config.freeWord s.draws ∧ t.lo = Config.freeWord (s.draws + 1) ∧
      t.draws = s.draws + 2 ∧ t.params = s.params ∧ t.env = s.env ∧ t.traps = s.traps)

/-- R165 to R168: the moves between a general register and HI or LO, the other of the two
unchanged. -/
def Obligations.HiLoMovesCopy : Prop :=
  ∀ (s : State) (r : RegIdx),
    (decodeWord (0b000000#6 ++ 0b00000#5 ++ 0b00000#5 ++ r ++ 0b00000#5 ++ 0b010000#6) =
        .ok (.mfhi r) ∧
      decodeWord (0b000000#6 ++ 0b00000#5 ++ 0b00000#5 ++ r ++ 0b00000#5 ++ 0b010010#6) =
        .ok (.mflo r) ∧
      decodeWord (0b000000#6 ++ r ++ 0b00000#5 ++ 0b00000#5 ++ 0b00000#5 ++ 0b010001#6) =
        .ok (.mthi r) ∧
      decodeWord (0b000000#6 ++ r ++ 0b00000#5 ++ 0b00000#5 ++ 0b00000#5 ++ 0b010011#6) =
        .ok (.mtlo r)) ∧
    (∃ t, exec (.mfhi r) s = .next t ∧ WritesReg r s.hi s t) ∧
    (∃ t, exec (.mflo r) s = .next t ∧ WritesReg r s.lo s t) ∧
    (∃ t, exec (.mthi r) s = .next t ∧ WritesHiLo (s.reg r) s.lo s t) ∧
    (∃ t, exec (.mtlo r) s = .next t ∧ WritesHiLo s.hi (s.reg r) s t)

/-! ### Memory -/

/-- R51: the effective address is the register plus the signed offset, modulo 2^32. -/
def Obligations.EffectiveAddressWraps : Prop :=
  ∀ (s : State) (rs : RegIdx) (offset : Imm16),
    ((effAddr s rs offset).toNat : Int) = ((s.reg rs).toNat + offset.toInt) % 2 ^ 32

/-- R42, R43: writing n bytes and reading them back gives the value, for n = 1, 2 and 4 in both byte
orders, and no other byte changes. -/
def Obligations.MemWriteThenMemRead : Prop :=
  ∀ (s : State) (a v : Word),
    (s.memWrite a 1 v).byte a = v.extractLsb' 0 8 ∧
    (s.memWrite a 2 v).readHalf a = v.extractLsb' 0 16 ∧
    (s.memWrite a 4 v).readWord a = v ∧
    ∀ n ∈ [1, 2, 4], ∀ x : Word, ¬ InSpan a n x → (s.memWrite a n v).byte x = s.byte x

/-- R41: each byte of an aligned word, by its significance, in both byte orders. -/
def Obligations.AlignedWordIsItsBytesBySignificance : Prop :=
  ∀ (s : State) (a : Word),
    sig s.params.bigEndian a =
      (if s.params.bigEndian then 3 - a.toNat % 4 else a.toNat % 4) ∧
    (s.readWord (wordBase a)).extractLsb' (8 * sig s.params.bigEndian a) 8 = s.byte a

/-- R181, R182: a byte, sign- or zero-extended, with no alignment exception; an address that does not
exist is a bus fault. -/
def Obligations.ByteLoadsExtend : Prop :=
  ∀ (s : State) (rt rs : RegIdx) (offset : Imm16) (ea : Word), ea = effAddr s rs offset →
    (decodeWord (0b100000#6 ++ rs ++ rt ++ offset) = .ok (.lb rt offset rs) ∧
      decodeWord (0b100100#6 ++ rs ++ rt ++ offset) = .ok (.lbu rt offset rs)) ∧
    (s.memValid ea 1 .load = true →
      (∃ v t, exec (.lb rt offset rs) s = .next t ∧ WritesReg rt v s t ∧
        v.toInt = (s.byte ea).toInt) ∧
      (∃ v t, exec (.lbu rt offset rs) s = .next t ∧ WritesReg rt v s t ∧
        v.toNat = (s.byte ea).toNat)) ∧
    (s.memValid ea 1 .load = false →
      exec (.lb rt offset rs) s = .fault (.busFault .load ea s.pc) ∧
      exec (.lbu rt offset rs) s = .fault (.busFault .load ea s.pc))

/-- R183, R184: a halfword in the byte order of the run, sign- or zero-extended; an odd address traps
before anything else; an address that does not exist is a bus fault. -/
def Obligations.HalfwordLoadsExtendOrTrap : Prop :=
  ∀ (s : State) (rt rs : RegIdx) (offset : Imm16) (ea : Word) (h : BitVec 16),
    ea = effAddr s rs offset →
    h = (if s.params.bigEndian then s.byte ea ++ s.byte (ea + 1)
      else s.byte (ea + 1) ++ s.byte ea) →
    (decodeWord (0b100001#6 ++ rs ++ rt ++ offset) = .ok (.lh rt offset rs) ∧
      decodeWord (0b100101#6 ++ rs ++ rt ++ offset) = .ok (.lhu rt offset rs)) ∧
    (ea.toNat % 2 = 0 → s.memValid ea 2 .load = true →
      (∃ v t, exec (.lh rt offset rs) s = .next t ∧ WritesReg rt v s t ∧ v.toInt = h.toInt) ∧
      (∃ v t, exec (.lhu rt offset rs) s = .next t ∧ WritesReg rt v s t ∧
        v.toNat = h.toNat)) ∧
    (ea.toNat % 2 ≠ 0 →
      exec (.lh rt offset rs) s = raise (.addressError .load ea s.pc) s ∧
      exec (.lhu rt offset rs) s = raise (.addressError .load ea s.pc) s) ∧
    (ea.toNat % 2 = 0 → s.memValid ea 2 .load = false →
      exec (.lh rt offset rs) s = .fault (.busFault .load ea s.pc) ∧
      exec (.lhu rt offset rs) s = .fault (.busFault .load ea s.pc))

/-- R185: a word in the byte order of the run; an address that is no multiple of four traps before
anything else; an address that does not exist is a bus fault. -/
def Obligations.WordLoadReadsOrTraps : Prop :=
  ∀ (s : State) (rt rs : RegIdx) (offset : Imm16) (ea : Word), ea = effAddr s rs offset →
    decodeWord (0b100011#6 ++ rs ++ rt ++ offset) = .ok (.lw rt offset rs) ∧
    (ea.toNat % 4 = 0 → s.memValid ea 4 .load = true →
      ∃ t, exec (.lw rt offset rs) s = .next t ∧ WritesReg rt (if s.params.bigEndian
        then s.byte ea ++ s.byte (ea + 1) ++ s.byte (ea + 2) ++ s.byte (ea + 3)
        else s.byte (ea + 3) ++ s.byte (ea + 2) ++ s.byte (ea + 1) ++ s.byte ea) s t) ∧
    (ea.toNat % 4 ≠ 0 → exec (.lw rt offset rs) s = raise (.addressError .load ea s.pc) s) ∧
    (ea.toNat % 4 = 0 → s.memValid ea 4 .load = false →
      exec (.lw rt offset rs) s = .fault (.busFault .load ea s.pc))

/-- R187: `lwl` puts the bytes of significance 0 to k of the aligned memory word above the register's
own low 3-k bytes (which keep their value by the spec's decision D21); there is no alignment
exception. That only the bytes it moves must exist is decision D26, and that the bus fault carries the
lowest of their addresses is the model's reading (assumption 16). -/
def Obligations.LoadWordLeftMerges : Prop :=
  ∀ (s : State) (rt rs : RegIdx) (offset : Imm16) (ea lo w x : Word) (k : Nat),
    ea = effAddr s rs offset → k = sig s.params.bigEndian ea →
    lo = (if s.params.bigEndian then ea else wordBase ea) → w = s.readWord (wordBase ea) →
    x = s.reg rt →
    decodeWord (0b100010#6 ++ rs ++ rt ++ offset) = .ok (.lwl rt offset rs) ∧
    (s.memValid lo (k + 1) .load = true →
      ∃ v t, exec (.lwl rt offset rs) s = .next t ∧ WritesReg rt v s t ∧
        (k = 0 → v = w.extractLsb' 0 8 ++ x.extractLsb' 0 24) ∧
        (k = 1 → v = w.extractLsb' 0 16 ++ x.extractLsb' 0 16) ∧
        (k = 2 → v = w.extractLsb' 0 24 ++ x.extractLsb' 0 8) ∧
        (k = 3 → v = w)) ∧
    (s.memValid lo (k + 1) .load = false →
      exec (.lwl rt offset rs) s = .fault (.busFault .load lo s.pc))

/-- R188: `lwr` puts the bytes of significance k to 3 of the aligned memory word below the register's
own high k bytes (which keep their value by the spec's decision D21); there is no alignment exception.
That only the bytes it moves must exist is decision D26, and that the bus fault carries the lowest of
their addresses is the model's reading (assumption 16). -/
def Obligations.LoadWordRightMerges : Prop :=
  ∀ (s : State) (rt rs : RegIdx) (offset : Imm16) (ea lo w x : Word) (k : Nat),
    ea = effAddr s rs offset → k = sig s.params.bigEndian ea →
    lo = (if s.params.bigEndian then wordBase ea else ea) → w = s.readWord (wordBase ea) →
    x = s.reg rt →
    decodeWord (0b100110#6 ++ rs ++ rt ++ offset) = .ok (.lwr rt offset rs) ∧
    (s.memValid lo (4 - k) .load = true →
      ∃ v t, exec (.lwr rt offset rs) s = .next t ∧ WritesReg rt v s t ∧
        (k = 0 → v = w) ∧
        (k = 1 → v = x.extractLsb' 24 8 ++ w.extractLsb' 8 24) ∧
        (k = 2 → v = x.extractLsb' 16 16 ++ w.extractLsb' 16 16) ∧
        (k = 3 → v = x.extractLsb' 8 24 ++ w.extractLsb' 24 8)) ∧
    (s.memValid lo (4 - k) .load = false →
      exec (.lwr rt offset rs) s = .fault (.busFault .load lo s.pc))

/-- R189: at any address `a`, aligned or not, the pair `lwl`, `lwr` at `a+3`, `a` (little-endian) or
at `a`, `a+3` (big-endian), in either order, loads the four consecutive bytes at `a` to `a+3` as one
word, and changes nothing else but `pc`; with register 0 as destination nothing is written (R21).
Excluded is only a base that the first load overwrites. That the pair completes when each of the four
bytes exists by itself rests on the model's `MemValid`, which decomposes into its bytes (assumption
2). -/
def Obligations.UnalignedLoadPairReadsFourBytes : Prop :=
  ∀ (s : State) (rt rs : RegIdx) (low high left right : Imm16) (a : Word),
    rt = 0 ∨ rs ≠ rt → effAddr s rs low = a → effAddr s rs high = a + 3 →
    left = (if s.params.bigEndian then low else high) →
    right = (if s.params.bigEndian then high else low) →
    (∀ i < 4, s.memValid (a + BitVec.ofNat 32 i) 1 .load = true) →
    (∃ t u, exec (.lwl rt left rs) s = .next t ∧ exec (.lwr rt right rs) t = .next u ∧
      u.reg rt = (if rt = 0 then 0 else if s.params.bigEndian
        then s.byte a ++ s.byte (a + 1) ++ s.byte (a + 2) ++ s.byte (a + 3)
        else s.byte (a + 3) ++ s.byte (a + 2) ++ s.byte (a + 1) ++ s.byte a) ∧
      u.pc = s.pc + 8 ∧ (∀ q, q ≠ rt → u.reg q = s.reg q) ∧ SameHiLo s u ∧ SameBytes s u) ∧
    (∃ t u, exec (.lwr rt right rs) s = .next t ∧ exec (.lwl rt left rs) t = .next u ∧
      u.reg rt = (if rt = 0 then 0 else if s.params.bigEndian
        then s.byte a ++ s.byte (a + 1) ++ s.byte (a + 2) ++ s.byte (a + 3)
        else s.byte (a + 3) ++ s.byte (a + 2) ++ s.byte (a + 1) ++ s.byte a) ∧
      u.pc = s.pc + 8 ∧ (∀ q, q ≠ rt → u.reg q = s.reg q) ∧ SameHiLo s u ∧ SameBytes s u)

/-- R190: the low byte of the register, with no alignment exception. -/
def Obligations.ByteStoreWrites : Prop :=
  ∀ (s : State) (rt rs : RegIdx) (offset : Imm16) (ea : Word), ea = effAddr s rs offset →
    decodeWord (0b101000#6 ++ rs ++ rt ++ offset) = .ok (.sb rt offset rs) ∧
    (s.memValid ea 1 .store = true →
      ∃ t, exec (.sb rt offset rs) s = .next t ∧ ChangesOnlyBytes (InSpan ea 1) s t ∧
        t.byte ea = (s.reg rt).extractLsb' 0 8) ∧
    (s.memValid ea 1 .store = false →
      exec (.sb rt offset rs) s = .fault (.busFault .store ea s.pc))

/-- R191: the low halfword of the register, in the byte order of the run; an odd address traps. -/
def Obligations.HalfwordStoreWritesOrTraps : Prop :=
  ∀ (s : State) (rt rs : RegIdx) (offset : Imm16) (ea : Word), ea = effAddr s rs offset →
    decodeWord (0b101001#6 ++ rs ++ rt ++ offset) = .ok (.sh rt offset rs) ∧
    (ea.toNat % 2 = 0 → s.memValid ea 2 .store = true →
      ∃ t, exec (.sh rt offset rs) s = .next t ∧ ChangesOnlyBytes (InSpan ea 2) s t ∧
        t.byte (if s.params.bigEndian then ea + 1 else ea) = (s.reg rt).extractLsb' 0 8 ∧
        t.byte (if s.params.bigEndian then ea else ea + 1) = (s.reg rt).extractLsb' 8 8) ∧
    (ea.toNat % 2 ≠ 0 → exec (.sh rt offset rs) s = raise (.addressError .store ea s.pc) s) ∧
    (ea.toNat % 2 = 0 → s.memValid ea 2 .store = false →
      exec (.sh rt offset rs) s = .fault (.busFault .store ea s.pc))

/-- R192: the whole register, in the byte order of the run; an address that is no multiple of four
traps. -/
def Obligations.WordStoreWritesOrTraps : Prop :=
  ∀ (s : State) (rt rs : RegIdx) (offset : Imm16) (ea : Word), ea = effAddr s rs offset →
    decodeWord (0b101011#6 ++ rs ++ rt ++ offset) = .ok (.sw rt offset rs) ∧
    (ea.toNat % 4 = 0 → s.memValid ea 4 .store = true →
      ∃ t, exec (.sw rt offset rs) s = .next t ∧ ChangesOnlyBytes (InSpan ea 4) s t ∧
        ∀ i < 4, t.byte (ea + BitVec.ofNat 32 i) =
          (s.reg rt).extractLsb' (8 * if s.params.bigEndian then 3 - i else i) 8) ∧
    (ea.toNat % 4 ≠ 0 → exec (.sw rt offset rs) s = raise (.addressError .store ea s.pc) s) ∧
    (ea.toNat % 4 = 0 → s.memValid ea 4 .store = false →
      exec (.sw rt offset rs) s = .fault (.busFault .store ea s.pc))

/-- R193: `swl` stores the register's most significant k+1 bytes into the bytes of significance k to 0
of the aligned word, and changes no other byte (the spec's decision D21). That only the bytes it
stores must exist is decision D26, and that the bus fault carries the lowest of their addresses is the
model's reading (assumption 16). -/
def Obligations.StoreWordLeftWrites : Prop :=
  ∀ (s : State) (rt rs : RegIdx) (offset : Imm16) (ea lo : Word) (k : Nat),
    ea = effAddr s rs offset → k = sig s.params.bigEndian ea →
    lo = (if s.params.bigEndian then ea else wordBase ea) →
    decodeWord (0b101010#6 ++ rs ++ rt ++ offset) = .ok (.swl rt offset rs) ∧
    (s.memValid lo (k + 1) .store = true →
      ∃ t, exec (.swl rt offset rs) s = .next t ∧ ChangesOnlyBytes (InSpan lo (k + 1)) s t ∧
        ∀ j ≤ k, t.byte (sigAddr s.params.bigEndian (wordBase ea) (k - j)) =
          (s.reg rt).extractLsb' (24 - 8 * j) 8) ∧
    (s.memValid lo (k + 1) .store = false →
      exec (.swl rt offset rs) s = .fault (.busFault .store lo s.pc))

/-- R194: `swr` stores the register's least significant 4-k bytes into the bytes of significance k to 3
of the aligned word, and changes no other byte (the spec's decision D21). That only the bytes it
stores must exist is decision D26, and that the bus fault carries the lowest of their addresses is the
model's reading (assumption 16). -/
def Obligations.StoreWordRightWrites : Prop :=
  ∀ (s : State) (rt rs : RegIdx) (offset : Imm16) (ea lo : Word) (k : Nat),
    ea = effAddr s rs offset → k = sig s.params.bigEndian ea →
    lo = (if s.params.bigEndian then wordBase ea else ea) →
    decodeWord (0b101110#6 ++ rs ++ rt ++ offset) = .ok (.swr rt offset rs) ∧
    (s.memValid lo (4 - k) .store = true →
      ∃ t, exec (.swr rt offset rs) s = .next t ∧ ChangesOnlyBytes (InSpan lo (4 - k)) s t ∧
        ∀ j ≤ 3 - k, t.byte (sigAddr s.params.bigEndian (wordBase ea) (k + j)) =
          (s.reg rt).extractLsb' (8 * j) 8) ∧
    (s.memValid lo (4 - k) .store = false →
      exec (.swr rt offset rs) s = .fault (.busFault .store lo s.pc))

/-- R195: at any address `a`, aligned or not, the pair `swl`, `swr` at `a+3`, `a` (little-endian) or
at `a`, `a+3` (big-endian), in either order, stores the register into the four consecutive bytes at
`a` to `a+3`, and changes nothing else but `pc`. That the pair completes when each of the four bytes
exists by itself rests on the model's `MemValid`, which decomposes into its bytes (assumption 2). -/
def Obligations.UnalignedStorePairWritesFourBytes : Prop :=
  ∀ (s : State) (rt rs : RegIdx) (low high left right : Imm16) (a : Word),
    effAddr s rs low = a → effAddr s rs high = a + 3 →
    left = (if s.params.bigEndian then low else high) →
    right = (if s.params.bigEndian then high else low) →
    (∀ i < 4, s.memValid (a + BitVec.ofNat 32 i) 1 .store = true) →
    (∃ t u, exec (.swl rt left rs) s = .next t ∧ exec (.swr rt right rs) t = .next u ∧
      (∀ i < 4, u.byte (a + BitVec.ofNat 32 i) =
        (s.reg rt).extractLsb' (8 * if s.params.bigEndian then 3 - i else i) 8) ∧
      (∀ x, ¬ InSpan a 4 x → u.byte x = s.byte x) ∧
      u.pc = s.pc + 8 ∧ SameRegs s u ∧ SameHiLo s u) ∧
    (∃ t u, exec (.swr rt right rs) s = .next t ∧ exec (.swl rt left rs) t = .next u ∧
      (∀ i < 4, u.byte (a + BitVec.ofNat 32 i) =
        (s.reg rt).extractLsb' (8 * if s.params.bigEndian then 3 - i else i) 8) ∧
      (∀ x, ¬ InSpan a 4 x → u.byte x = s.byte x) ∧
      u.pc = s.pc + 8 ∧ SameRegs s u ∧ SameHiLo s u)

/-- R44: after a word is stored, byte and halfword loads in it, sign- or zero-extending, read the bytes
the store left, in the byte order of the run. -/
def Obligations.NarrowLoadsSeeAWordStore : Prop :=
  ∀ (s t : State) (rt rs r base : RegIdx) (offset o : Imm16) (a : Word) (k : Nat),
    a = effAddr s rs offset → a.toNat % 4 = 0 → exec (.sw rt offset rs) s = .next t →
    r ≠ 0 → k < 4 → effAddr t base o = a + BitVec.ofNat 32 k →
    (t.memValid (a + BitVec.ofNat 32 k) 1 .load = true →
      ∀ b : Byte,
        b = (s.reg rt).extractLsb' (8 * if s.params.bigEndian then 3 - k else k) 8 →
        (∃ u, exec (.lbu r o base) t = .next u ∧ u.reg r = b.zeroExtend 32) ∧
        (∃ u, exec (.lb r o base) t = .next u ∧ u.reg r = b.signExtend 32)) ∧
    (k % 2 = 0 → t.memValid (a + BitVec.ofNat 32 k) 2 .load = true →
      ∀ h : BitVec 16,
        h = (s.reg rt).extractLsb' (8 * if s.params.bigEndian then 2 - k else k) 16 →
        (∃ u, exec (.lhu r o base) t = .next u ∧ u.reg r = h.zeroExtend 32) ∧
        (∃ u, exec (.lh r o base) t = .next u ∧ u.reg r = h.signExtend 32))

/-- R57 (the spec's decision D15), R45: a fetch sees an earlier store. Where a stored word is an
instruction, a step that fetches from its address runs it. R57 advises a model to refuse a program
that relies on this; that this one runs it instead is its own choice (assumption 14). -/
def Obligations.StoredWordIsFetched : Prop :=
  ∀ (s t : State) (rt rs : RegIdx) (offset : Imm16) (a : Word) (i : Instr),
    a = effAddr s rs offset → a.toNat % 4 = 0 → exec (.sw rt offset rs) s = .next t →
    decodeWord (s.reg rt) = .ok i → t.memValid a 4 .fetch = true →
    step (t.setPc a) = exec i (t.setPc a)

/-! ### Branches and jumps -/

/-- R132, R140, R131: to `pc + 4` plus four times the signed immediate, modulo 2^32, when the registers
are equal (different), else to `pc + 4`. -/
def Obligations.EqualityBranchesGo : Prop :=
  ∀ (s : State) (rs rt : RegIdx) (imm : Imm16) (target : Word),
    target = BitVec.ofInt 32 (s.pc.toNat + 4 + 4 * imm.toInt) →
    (decodeWord (0b000100#6 ++ rs ++ rt ++ imm) = .ok (.beq rs rt imm) ∧
      decodeWord (0b000101#6 ++ rs ++ rt ++ imm) = .ok (.bne rs rt imm)) ∧
    (∃ t, exec (.beq rs rt imm) s = .next t ∧
      GoesTo (if s.reg rs = s.reg rt then target else s.pc + 4) s t) ∧
    (∃ t, exec (.bne rs rt imm) s = .next t ∧
      GoesTo (if s.reg rs = s.reg rt then s.pc + 4 else target) s t)

/-- R133, R135, R137, R139, R131: the four branches on the sign of a register. -/
def Obligations.SignBranchesGo : Prop :=
  ∀ (s : State) (rs : RegIdx) (imm : Imm16) (target : Word),
    target = BitVec.ofInt 32 (s.pc.toNat + 4 + 4 * imm.toInt) →
    (decodeWord (0b000001#6 ++ rs ++ 0b00001#5 ++ imm) = .ok (.bgez rs imm) ∧
      decodeWord (0b000111#6 ++ rs ++ 0b00000#5 ++ imm) = .ok (.bgtz rs imm) ∧
      decodeWord (0b000110#6 ++ rs ++ 0b00000#5 ++ imm) = .ok (.blez rs imm) ∧
      decodeWord (0b000001#6 ++ rs ++ 0b00000#5 ++ imm) = .ok (.bltz rs imm)) ∧
    (∃ t, exec (.bgez rs imm) s = .next t ∧
      GoesTo (if (s.reg rs).msb then s.pc + 4 else target) s t) ∧
    (∃ t, exec (.bgtz rs imm) s = .next t ∧
      GoesTo (if (s.reg rs).msb = false ∧ s.reg rs ≠ 0 then target else s.pc + 4) s t) ∧
    (∃ t, exec (.blez rs imm) s = .next t ∧
      GoesTo (if (s.reg rs).msb = true ∨ s.reg rs = 0 then target else s.pc + 4) s t) ∧
    (∃ t, exec (.bltz rs imm) s = .next t ∧
      GoesTo (if (s.reg rs).msb then target else s.pc + 4) s t)

/-- R134, R138, R136: `bgezal` and `bltzal` test the old register, write `pc + 4` to `x[31]` only when
they branch, and else only advance. -/
def Obligations.LinkingBranchesLinkOnlyWhenTaken : Prop :=
  ∀ (s : State) (rs : RegIdx) (imm : Imm16) (target : Word),
    target = BitVec.ofInt 32 (s.pc.toNat + 4 + 4 * imm.toInt) →
    (decodeWord (0b000001#6 ++ rs ++ 0b10001#5 ++ imm) = .ok (.bgezal rs imm) ∧
      decodeWord (0b000001#6 ++ rs ++ 0b10000#5 ++ imm) = .ok (.bltzal rs imm)) ∧
    (0 ≤ (s.reg rs).toInt →
      (∃ t, exec (.bgezal rs imm) s = .next t ∧ LinksAndGoesTo 31 target s t) ∧
      (∃ t, exec (.bltzal rs imm) s = .next t ∧ GoesTo (s.pc + 4) s t)) ∧
    ((s.reg rs).toInt < 0 →
      (∃ t, exec (.bgezal rs imm) s = .next t ∧ GoesTo (s.pc + 4) s t) ∧
      (∃ t, exec (.bltzal rs imm) s = .next t ∧ LinksAndGoesTo 31 target s t))

/-- R141, R142: the target keeps the top four bits of `pc + 4` and takes the rest from the immediate;
`jal` links `pc + 4` in `x[31]`. -/
def Obligations.DirectJumpsGo : Prop :=
  ∀ (s : State) (imm : Imm26) (target : Word),
    target = BitVec.ofNat 32 ((s.pc + 4).toNat / 2 ^ 28 * 2 ^ 28 + 4 * imm.toNat) →
    (decodeWord (0b000010#6 ++ imm) = .ok (.j imm) ∧
      decodeWord (0b000011#6 ++ imm) = .ok (.jal imm)) ∧
    (∃ t, exec (.j imm) s = .next t ∧ GoesTo target s t) ∧
    (∃ t, exec (.jal imm) s = .next t ∧ LinksAndGoesTo 31 target s t)

/-- R143, R144, R145, R146: `jr` and `jalr` take all 32 bits of the register; `jalr` links `pc + 4` in
any register; `jalr` with both registers the same and not 0 is unpredictable and stops. A jump to a
misaligned address completes, and it is the next step that raises the address error of the fetch,
whether or not the address exists (the last two are the spec's own decisions D27, D8 and D29). -/
def Obligations.RegisterJumpsGo : Prop :=
  ∀ (s : State) (rd rs : RegIdx),
    (decodeWord (0b000000#6 ++ rs ++ 0b00000#5 ++ rd ++ 0b00000#5 ++ 0b001001#6) =
        .ok (.jalr rd rs) ∧
      decodeWord (0b000000#6 ++ rs ++ 0b00000#5 ++ 0b00000#5 ++ 0b00000#5 ++ 0b001000#6) =
        .ok (.jr rs)) ∧
    (∃ t, exec (.jr rs) s = .next t ∧ GoesTo (s.reg rs) s t ∧
      ((s.reg rs).toNat % 4 ≠ 0 →
        step t = raise (.addressError .fetch (s.reg rs) (s.reg rs)) t)) ∧
    (rs ≠ rd ∨ rd = 0 →
      ∃ t, exec (.jalr rd rs) s = .next t ∧ LinksAndGoesTo rd (s.reg rs) s t ∧
        ((s.reg rs).toNat % 4 ≠ 0 →
          step t = raise (.addressError .fetch (s.reg rs) (s.reg rs)) t)) ∧
    (rs = rd → rd ≠ 0 → exec (.jalr rd rs) s = .fault (.unpredictable s.pc))

/-! ### Traps and the system call -/

/-- R232, R233 with assumptions 8 and 9: a trap is answered by the state's own next answer, or by `Env`
where it has none; the answer that the run ends stops the step in that event; so does, whatever the
environment, each event the spec says the model treats as a fault. -/
def Obligations.UnansweredTrapsStop : Prop :=
  ∀ (s : State) (e : Fault),
    (s.env = [] → envAnswer e s = Config.env e s) ∧
    (∀ a rest, s.env = a :: rest → envAnswer e s = a) ∧
    (envAnswer e s = .endRun → raise e s = .fault e) ∧
    (∀ w p, raise (.reservedInstruction w p) s = .fault (.reservedInstruction w p)) ∧
    (∀ k a p, raise (.busFault k a p) s = .fault (.busFault k a p)) ∧
    (∀ p, raise (.unpredictable p) s = .fault (.unpredictable p))

/-- R232 with assumption 8: where the environment answers an overflow or address error with a state to
resume from, that state is the state before the instruction (R233) with the environment's changes and
nothing else: its `pc` is the environment's, each register and byte the answer writes holds the last
value it writes there, and every other one is as before. -/
def Obligations.AnsweredTrapsResume : Prop :=
  ∀ (s : State) (e : Fault) (r : Resume), envAnswer e s = .resume r →
    ((∃ p, e = .integerOverflow p) ∨ ∃ k a p, e = .addressError k a p) →
    ∃ t, raise e s = .next t ∧ ResumesWith r.pc r s t

/-- R220, R221 with assumption 8: `syscall` always hands the trap to the environment. Where it answers
with a state to resume from, the run goes on at `pc + 4` of the `syscall`, whatever `pc` the answer
names, with the environment's changes and nothing else; where it ends the run, the step ends in the
trap. -/
def Obligations.SyscallHandsOverAndResumes : Prop :=
  decodeWord 0x0000000C#32 = .ok .syscall ∧
  ∀ s : State,
    (∀ r : Resume, envAnswer (.syscall s.pc) s = .resume r →
      ∃ t, exec .syscall s = .next t ∧ ResumesWith (s.pc + 4) r s t) ∧
    (envAnswer (.syscall s.pc) s = .endRun → exec .syscall s = .fault (.syscall s.pc))
end

