-- ==== Sys2Proof/Laws/Encode.lean ====
section
/-! SUPPORT. What each field of an encoded word holds, and that a word is the join of its fields. -/

namespace Sys2Proof

/-- A concatenation as a number: the left part stands above the right (R8). -/
theorem toNat_append_eq {v w : Nat} (x : BitVec v) (y : BitVec w) :
    (x ++ y).toNat = x.toNat * 2 ^ w + y.toNat := by
  rw [BitVec.toNat_append, ← Nat.shiftLeft_add_eq_or_of_lt y.isLt, Nat.shiftLeft_eq]

/-- A field as a number. -/
theorem toNat_field (w : Word) (start len : Nat) :
    (w.extractLsb' start len).toNat = w.toNat / 2 ^ start % 2 ^ len := by
  rw [BitVec.extractLsb'_toNat, Nat.shiftRight_eq_div_pow]

section
variable (op f : BitVec 6) (rs rt rd : RegIdx) (sa : BitVec 5) (imm : Imm16) (t : Imm26)

theorem toNat_encodeR : (encodeR rs rt rd sa f).toNat =
    rs.toNat * 2 ^ 21 + rt.toNat * 2 ^ 16 + rd.toNat * 2 ^ 11 + sa.toNat * 2 ^ 6 + f.toNat := by
  show ((0b000000#6 ++ rs ++ rt ++ rd ++ sa ++ f : BitVec (6 + 5 + 5 + 5 + 5 + 6))).toNat = _
  simp only [toNat_append_eq, BitVec.toNat_ofNat]
  omega

theorem toNat_encodeI : (encodeI op rs rt imm).toNat =
    op.toNat * 2 ^ 26 + rs.toNat * 2 ^ 21 + rt.toNat * 2 ^ 16 + imm.toNat := by
  show ((op ++ rs ++ rt ++ imm : BitVec (6 + 5 + 5 + 16))).toNat = _
  simp only [toNat_append_eq]
  omega

theorem toNat_encodeJ : (encodeJ op t).toNat = op.toNat * 2 ^ 26 + t.toNat := by
  show ((op ++ t : BitVec (6 + 26))).toNat = _
  simp only [toNat_append_eq]

/-! ### Fields of layout R -/

@[simp] theorem opOf_encodeR : opOf (encodeR rs rt rd sa f) = 0#6 := by
  apply BitVec.eq_of_toNat_eq
  rw [opOf, toNat_field, toNat_encodeR, BitVec.toNat_ofNat]
  omega
@[simp] theorem rsOf_encodeR : rsOf (encodeR rs rt rd sa f) = rs := by
  apply BitVec.eq_of_toNat_eq
  rw [rsOf, toNat_field, toNat_encodeR]
  omega
@[simp] theorem rtOf_encodeR : rtOf (encodeR rs rt rd sa f) = rt := by
  apply BitVec.eq_of_toNat_eq
  rw [rtOf, toNat_field, toNat_encodeR]
  omega
@[simp] theorem rdOf_encodeR : rdOf (encodeR rs rt rd sa f) = rd := by
  apply BitVec.eq_of_toNat_eq
  rw [rdOf, toNat_field, toNat_encodeR]
  omega
@[simp] theorem saOf_encodeR : saOf (encodeR rs rt rd sa f) = sa := by
  apply BitVec.eq_of_toNat_eq
  rw [saOf, toNat_field, toNat_encodeR]
  omega
@[simp] theorem functOf_encodeR : functOf (encodeR rs rt rd sa f) = f := by
  apply BitVec.eq_of_toNat_eq
  rw [functOf, toNat_field, toNat_encodeR]
  omega

/-! ### Fields of layouts I and RI -/

@[simp] theorem opOf_encodeI : opOf (encodeI op rs rt imm) = op := by
  apply BitVec.eq_of_toNat_eq
  rw [opOf, toNat_field, toNat_encodeI]
  omega
@[simp] theorem rsOf_encodeI : rsOf (encodeI op rs rt imm) = rs := by
  apply BitVec.eq_of_toNat_eq
  rw [rsOf, toNat_field, toNat_encodeI]
  omega
@[simp] theorem rtOf_encodeI : rtOf (encodeI op rs rt imm) = rt := by
  apply BitVec.eq_of_toNat_eq
  rw [rtOf, toNat_field, toNat_encodeI]
  omega
@[simp] theorem imm16Of_encodeI : imm16Of (encodeI op rs rt imm) = imm := by
  apply BitVec.eq_of_toNat_eq
  rw [imm16Of, toNat_field, toNat_encodeI]
  omega

/-! ### Fields of layout J -/

@[simp] theorem opOf_encodeJ : opOf (encodeJ op t) = op := by
  apply BitVec.eq_of_toNat_eq
  rw [opOf, toNat_field, toNat_encodeJ]
  omega
@[simp] theorem imm26Of_encodeJ : imm26Of (encodeJ op t) = t := by
  apply BitVec.eq_of_toNat_eq
  rw [imm26Of, toNat_field, toNat_encodeJ]
  omega

end

/-! ### A word is the join of its fields -/

theorem encodeR_fields {w : Word} (h : opOf w = 0#6) :
    encodeR (rsOf w) (rtOf w) (rdOf w) (saOf w) (functOf w) = w := by
  apply BitVec.eq_of_toNat_eq
  have h' := congrArg BitVec.toNat h
  rw [opOf, toNat_field, BitVec.toNat_ofNat] at h'
  rw [toNat_encodeR]
  simp only [rsOf, rtOf, rdOf, saOf, functOf, toNat_field]
  omega

theorem encodeI_fields (w : Word) : encodeI (opOf w) (rsOf w) (rtOf w) (imm16Of w) = w := by
  apply BitVec.eq_of_toNat_eq
  rw [toNat_encodeI]
  simp only [opOf, rsOf, rtOf, imm16Of, toNat_field]
  omega

theorem encodeJ_fields (w : Word) : encodeJ (opOf w) (imm26Of w) = w := by
  apply BitVec.eq_of_toNat_eq
  rw [toNat_encodeJ]
  simp only [opOf, imm26Of, toNat_field]
  omega

/-! ### Byte order -/

/-- Laying a word out in memory and reading it back gives the word, in both byte orders (R43). -/
@[simp] theorem wordOfBytes_byteOfWord (be : Bool) (v : Word) :
    wordOfBytes be (byteOfWord be 4 v 0) (byteOfWord be 4 v 1) (byteOfWord be 4 v 2)
      (byteOfWord be 4 v 3) = v := by
  apply BitVec.eq_of_toNat_eq
  have hv := v.isLt
  cases be <;>
  · simp only [wordOfBytes, byteOfWord, if_true, if_false, Bool.false_eq_true]
    show ((_ ++ _ ++ _ ++ _ : BitVec (8 + 8 + 8 + 8))).toNat = _
    simp only [toNat_append_eq, toNat_field]
    omega

/-- What R90 lets through. -/
theorem strict_eq_ok {z : Bool} {w : Word} {i k : Instr} :
    strict z w i = .ok k ↔ z = true ∧ i = k := by
  cases z <;> simp [strict]

end Sys2Proof
end

