-- ==== Sys2Proof/Laws/State.lean ====
section
/-! SUPPORT. One lemma per field per update, so that no later proof unfolds an update. -/

namespace Sys2Proof.Machine

open Sys2Proof

variable (s : State) (r q : RegIdx) (v h : Word) (a : Word) (b : Byte)

/-! ### Fields after `setReg` -/

@[simp] theorem setReg_pc : (s.setReg r v).pc = s.pc := by unfold State.setReg; split <;> rfl
@[simp] theorem setReg_hi : (s.setReg r v).hi = s.hi := by unfold State.setReg; split <;> rfl
@[simp] theorem setReg_lo : (s.setReg r v).lo = s.lo := by unfold State.setReg; split <;> rfl
@[simp] theorem setReg_mem : (s.setReg r v).mem = s.mem := by unfold State.setReg; split <;> rfl
@[simp] theorem setReg_params : (s.setReg r v).params = s.params := by
  unfold State.setReg; split <;> rfl
@[simp] theorem setReg_env : (s.setReg r v).env = s.env := by unfold State.setReg; split <;> rfl
@[simp] theorem setReg_traps : (s.setReg r v).traps = s.traps := by
  unfold State.setReg; split <;> rfl
@[simp] theorem setReg_draws : (s.setReg r v).draws = s.draws := by
  unfold State.setReg; split <;> rfl
@[simp] theorem setReg_byte : (s.setReg r v).byte a = s.byte a := by simp [State.byte]
@[simp] theorem setReg_npc : (s.setReg r v).npc = s.npc := by simp [State.npc]

/-- R21: a write to register 0 has no effect. -/
@[simp] theorem setReg_zero : s.setReg 0#5 v = s := by simp [State.setReg]

/-- R21: register 0 reads as 0. -/
@[simp] theorem reg_zero : s.reg 0#5 = 0#32 := by simp [State.reg]

/-- Everything a register read can see of a register write. -/
theorem reg_setReg : (s.setReg r v).reg q = if q = r ∧ r ≠ 0 then v else s.reg q := by
  have hr := r.isLt
  have hq := q.isLt
  by_cases h0 : r = 0
  · simp [h0]
  · by_cases hq0 : q = 0
    · have : ¬ (0 : RegIdx) = r := fun h => h0 h.symm
      rw [hq0, if_neg fun h => this h.1]; simp
    · have pos : ∀ p : RegIdx, p ≠ 0 → 0 < p.toNat := fun p hp => by
        rcases Nat.eq_zero_or_pos p.toNat with h | h
        · exact absurd (BitVec.eq_of_toNat_eq (by simpa using h)) hp
        · exact h
      have hr1 := pos r h0
      have hq1 := pos q hq0
      simp only [State.reg, State.setReg, h0, hq0, if_false, ne_eq, not_false_iff, and_true]
      rw [Vector.getElem_set]
      by_cases hqr : q = r
      · simp [hqr]
      · have : r.toNat - 1 ≠ q.toNat - 1 := fun h => hqr (BitVec.eq_of_toNat_eq (by omega))
        simp [hqr, this]

/-! ### Fields after the other updates -/

@[simp] theorem setPc_pc : (s.setPc v).pc = v := rfl
@[simp] theorem setPc_gpr : (s.setPc v).gpr = s.gpr := rfl
@[simp] theorem setPc_hi : (s.setPc v).hi = s.hi := rfl
@[simp] theorem setPc_lo : (s.setPc v).lo = s.lo := rfl
@[simp] theorem setPc_mem : (s.setPc v).mem = s.mem := rfl
@[simp] theorem setPc_params : (s.setPc v).params = s.params := rfl
@[simp] theorem setPc_env : (s.setPc v).env = s.env := rfl
@[simp] theorem setPc_traps : (s.setPc v).traps = s.traps := rfl
@[simp] theorem setPc_draws : (s.setPc v).draws = s.draws := rfl
@[simp] theorem setPc_reg : (s.setPc v).reg q = s.reg q := rfl
@[simp] theorem setPc_byte : (s.setPc v).byte a = s.byte a := rfl

@[simp] theorem advance_pc : s.advance.pc = s.pc + 4 := rfl
@[simp] theorem advance_hi : s.advance.hi = s.hi := rfl
@[simp] theorem advance_lo : s.advance.lo = s.lo := rfl
@[simp] theorem advance_mem : s.advance.mem = s.mem := rfl
@[simp] theorem advance_params : s.advance.params = s.params := rfl
@[simp] theorem advance_env : s.advance.env = s.env := rfl
@[simp] theorem advance_traps : s.advance.traps = s.traps := rfl
@[simp] theorem advance_draws : s.advance.draws = s.draws := rfl
@[simp] theorem advance_reg : s.advance.reg q = s.reg q := rfl
@[simp] theorem advance_byte : s.advance.byte a = s.byte a := rfl

@[simp] theorem setHi_pc : (s.setHi h).pc = s.pc := rfl
@[simp] theorem setHi_hi : (s.setHi h).hi = h := rfl
@[simp] theorem setHi_lo : (s.setHi h).lo = s.lo := rfl
@[simp] theorem setHi_mem : (s.setHi h).mem = s.mem := rfl
@[simp] theorem setHi_params : (s.setHi h).params = s.params := rfl
@[simp] theorem setHi_env : (s.setHi h).env = s.env := rfl
@[simp] theorem setHi_traps : (s.setHi h).traps = s.traps := rfl
@[simp] theorem setHi_draws : (s.setHi h).draws = s.draws := rfl
@[simp] theorem setHi_reg : (s.setHi h).reg q = s.reg q := rfl
@[simp] theorem setHi_byte : (s.setHi h).byte a = s.byte a := rfl

@[simp] theorem setLo_pc : (s.setLo h).pc = s.pc := rfl
@[simp] theorem setLo_hi : (s.setLo h).hi = s.hi := rfl
@[simp] theorem setLo_lo : (s.setLo h).lo = h := rfl
@[simp] theorem setLo_mem : (s.setLo h).mem = s.mem := rfl
@[simp] theorem setLo_params : (s.setLo h).params = s.params := rfl
@[simp] theorem setLo_env : (s.setLo h).env = s.env := rfl
@[simp] theorem setLo_traps : (s.setLo h).traps = s.traps := rfl
@[simp] theorem setLo_draws : (s.setLo h).draws = s.draws := rfl
@[simp] theorem setLo_reg : (s.setLo h).reg q = s.reg q := rfl
@[simp] theorem setLo_byte : (s.setLo h).byte a = s.byte a := rfl

@[simp] theorem drawHiLo_pc : s.drawHiLo.pc = s.pc := rfl
@[simp] theorem drawHiLo_hi : s.drawHiLo.hi = Config.freeWord s.draws := rfl
@[simp] theorem drawHiLo_lo : s.drawHiLo.lo = Config.freeWord (s.draws + 1) := rfl
@[simp] theorem drawHiLo_mem : s.drawHiLo.mem = s.mem := rfl
@[simp] theorem drawHiLo_params : s.drawHiLo.params = s.params := rfl
@[simp] theorem drawHiLo_env : s.drawHiLo.env = s.env := rfl
@[simp] theorem drawHiLo_traps : s.drawHiLo.traps = s.traps := rfl
@[simp] theorem drawHiLo_draws : s.drawHiLo.draws = s.draws + 2 := rfl
@[simp] theorem drawHiLo_reg : s.drawHiLo.reg q = s.reg q := rfl
@[simp] theorem drawHiLo_byte : s.drawHiLo.byte a = s.byte a := rfl

@[simp] theorem setByte_gpr : (s.setByte a b).gpr = s.gpr := rfl
@[simp] theorem setByte_pc : (s.setByte a b).pc = s.pc := rfl
@[simp] theorem setByte_hi : (s.setByte a b).hi = s.hi := rfl
@[simp] theorem setByte_lo : (s.setByte a b).lo = s.lo := rfl
@[simp] theorem setByte_params : (s.setByte a b).params = s.params := rfl
@[simp] theorem setByte_env : (s.setByte a b).env = s.env := rfl
@[simp] theorem setByte_traps : (s.setByte a b).traps = s.traps := rfl
@[simp] theorem setByte_draws : (s.setByte a b).draws = s.draws := rfl
@[simp] theorem setByte_reg : (s.setByte a b).reg q = s.reg q := rfl

@[simp] theorem answered_gpr : s.answered.gpr = s.gpr := rfl
@[simp] theorem answered_pc : s.answered.pc = s.pc := rfl
@[simp] theorem answered_hi : s.answered.hi = s.hi := rfl
@[simp] theorem answered_lo : s.answered.lo = s.lo := rfl
@[simp] theorem answered_mem : s.answered.mem = s.mem := rfl
@[simp] theorem answered_params : s.answered.params = s.params := rfl
@[simp] theorem answered_env : s.answered.env = s.env.tail := rfl
@[simp] theorem answered_traps : s.answered.traps = s.traps + 1 := rfl
@[simp] theorem answered_draws : s.answered.draws = s.draws := rfl
@[simp] theorem answered_reg : s.answered.reg q = s.reg q := rfl
@[simp] theorem answered_byte : s.answered.byte a = s.byte a := rfl

/-! ### Lists of updates -/

@[simp] theorem setRegs_nil : s.setRegs [] = s := rfl
@[simp] theorem setRegs_cons (w : RegIdx × Word) (ws : List (RegIdx × Word)) :
    s.setRegs (w :: ws) = (s.setReg w.1 w.2).setRegs ws := rfl

/-- A list of register writes changes general registers only. -/
theorem setRegs_other (ws : List (RegIdx × Word)) :
    (s.setRegs ws).pc = s.pc ∧ (s.setRegs ws).hi = s.hi ∧ (s.setRegs ws).lo = s.lo ∧
    (s.setRegs ws).mem = s.mem ∧ (s.setRegs ws).params = s.params ∧
    (s.setRegs ws).env = s.env ∧ (s.setRegs ws).draws = s.draws ∧
    (s.setRegs ws).traps = s.traps := by
  induction ws generalizing s with
  | nil => simp
  | cons w ws ih => simpa using ih (s.setReg w.1 w.2)

@[simp] theorem setRegs_pc (ws) : (s.setRegs ws).pc = s.pc := (setRegs_other s ws).1
@[simp] theorem setRegs_hi (ws) : (s.setRegs ws).hi = s.hi := (setRegs_other s ws).2.1
@[simp] theorem setRegs_lo (ws) : (s.setRegs ws).lo = s.lo := (setRegs_other s ws).2.2.1
@[simp] theorem setRegs_mem (ws) : (s.setRegs ws).mem = s.mem := (setRegs_other s ws).2.2.2.1
@[simp] theorem setRegs_params (ws) : (s.setRegs ws).params = s.params :=
  (setRegs_other s ws).2.2.2.2.1
@[simp] theorem setRegs_env (ws) : (s.setRegs ws).env = s.env :=
  (setRegs_other s ws).2.2.2.2.2.1
@[simp] theorem setRegs_draws (ws) : (s.setRegs ws).draws = s.draws :=
  (setRegs_other s ws).2.2.2.2.2.2.1
@[simp] theorem setRegs_traps (ws) : (s.setRegs ws).traps = s.traps :=
  (setRegs_other s ws).2.2.2.2.2.2.2

/-- A register that none of several writes names keeps its value. -/
theorem reg_setRegs_of_not_mem {q : RegIdx} (ws : List (RegIdx × Word)) (h : ∀ w ∈ ws, w.1 ≠ q) :
    (s.setRegs ws).reg q = s.reg q := by
  induction ws generalizing s with
  | nil => rfl
  | cons w ws ih =>
    rw [setRegs_cons, ih _ fun x hx => h x (by simp [hx]), reg_setReg,
      if_neg fun hq => h w (by simp) hq.1.symm]

@[simp] theorem setBytes_nil : s.setBytes [] = s := rfl
@[simp] theorem setBytes_cons (w : Word × Byte) (ws : List (Word × Byte)) :
    s.setBytes (w :: ws) = (s.setByte w.1 w.2).setBytes ws := rfl

/-- A list of byte writes changes memory only. -/
theorem setBytes_other (ws : List (Word × Byte)) :
    (s.setBytes ws).gpr = s.gpr ∧ (s.setBytes ws).pc = s.pc ∧ (s.setBytes ws).hi = s.hi ∧
    (s.setBytes ws).lo = s.lo ∧ (s.setBytes ws).params = s.params ∧
    (s.setBytes ws).env = s.env ∧ (s.setBytes ws).draws = s.draws ∧
    (s.setBytes ws).traps = s.traps := by
  induction ws generalizing s with
  | nil => simp
  | cons w ws ih => simpa using ih (s.setByte w.1 w.2)

@[simp] theorem setBytes_gpr (ws) : (s.setBytes ws).gpr = s.gpr := (setBytes_other s ws).1
@[simp] theorem setBytes_pc (ws) : (s.setBytes ws).pc = s.pc := (setBytes_other s ws).2.1
@[simp] theorem setBytes_hi (ws) : (s.setBytes ws).hi = s.hi := (setBytes_other s ws).2.2.1
@[simp] theorem setBytes_lo (ws) : (s.setBytes ws).lo = s.lo := (setBytes_other s ws).2.2.2.1
@[simp] theorem setBytes_params (ws) : (s.setBytes ws).params = s.params :=
  (setBytes_other s ws).2.2.2.2.1
@[simp] theorem setBytes_env (ws) : (s.setBytes ws).env = s.env :=
  (setBytes_other s ws).2.2.2.2.2.1
@[simp] theorem setBytes_draws (ws) : (s.setBytes ws).draws = s.draws :=
  (setBytes_other s ws).2.2.2.2.2.2.1
@[simp] theorem setBytes_traps (ws) : (s.setBytes ws).traps = s.traps :=
  (setBytes_other s ws).2.2.2.2.2.2.2
@[simp] theorem setBytes_reg (ws) : (s.setBytes ws).reg q = s.reg q := by simp [State.reg]

end Sys2Proof.Machine
end

