-- ==== Sys2Proof/Laws/Memory.lean ====
section
/-! SUPPORT. Reading after writing, and that every memory operation keeps the canonical form. -/

namespace Sys2Proof.Machine

open Sys2Proof

theorem mem_consByte {a : Nat} {b : Byte} {m : Memory} {c : Host.Cell}
    (h : c ∈ Memory.consByte a b m) : (c = (a, b) ∧ b ≠ Memory.unlisted) ∨ c ∈ m := by
  unfold Memory.consByte at h
  split at h
  · exact .inr h
  · next hb =>
    rcases List.mem_cons.mp h with rfl | h
    · exact .inl ⟨rfl, hb⟩
    · exact .inr h

/-- Everything an inserted list can hold. -/
theorem mem_insert {a : Nat} {b : Byte} {m : Memory} {c : Host.Cell}
    (h : c ∈ Memory.insert m a b) : (c = (a, b) ∧ b ≠ Memory.unlisted) ∨ c ∈ m := by
  induction m with
  | nil => exact mem_consByte h
  | cons d m ih =>
    unfold Memory.insert at h
    split at h
    · exact mem_consByte h
    · rcases List.mem_cons.mp h with rfl | h
      · exact .inr (by simp)
      · exact (ih h).imp_right (by simp +contextual)

/-- Everything a written memory can hold. -/
theorem mem_write {a : Nat} {b : Byte} {m : Memory} {c : Host.Cell}
    (h : c ∈ Memory.write m a b) :
    (c = (a, b) ∧ b ≠ Memory.unlisted) ∨ (c ∈ m ∧ c.1 ≠ a) :=
  (mem_insert h).imp_right fun h => by simpa using h

theorem insert_pairwise {a : Nat} {b : Byte} {m : Memory}
    (hm : m.Pairwise fun c d => c.1 < d.1) (ha : ∀ c ∈ m, c.1 ≠ a) :
    (Memory.insert m a b).Pairwise fun c d => c.1 < d.1 := by
  induction m with
  | nil => unfold Memory.insert Memory.consByte; split <;> simp
  | cons d m ih =>
    obtain ⟨hd, hm'⟩ := List.pairwise_cons.mp hm
    unfold Memory.insert
    split
    · next hlt =>
      unfold Memory.consByte
      split
      · exact hm
      · refine List.pairwise_cons.mpr ⟨fun c hc => ?_, hm⟩
        rcases List.mem_cons.mp hc with rfl | hc
        · exact hlt
        · exact Nat.lt_trans hlt (hd c hc)
    · next hge =>
      refine List.pairwise_cons.mpr ⟨fun c hc => ?_, ih hm' fun c hc => ha c (by simp [hc])⟩
      have hda := ha d (by simp)
      rcases mem_insert hc with ⟨rfl, -⟩ | hc
      · show d.1 < a
        omega
      · exact hd c hc

/-- A write keeps the canonical form. -/
theorem write_wf {m : Memory} (h : Memory.wf m) {a : Nat} (ha : a < 2 ^ 32) (b : Byte) :
    Memory.wf (Memory.write m a b) := by
  refine ⟨insert_pairwise (h.1.filter _) (by simp), fun c hc => ?_⟩
  rcases mem_write hc with ⟨rfl, hb⟩ | ⟨hc, -⟩
  · exact ⟨ha, hb⟩
  · exact h.2 c hc

theorem read_consByte (a : Nat) (b : Byte) (m : Memory) (x : Nat)
    (hm : Memory.read m a = Memory.unlisted) :
    Memory.read (Memory.consByte a b m) x = if x = a then b else Memory.read m x := by
  unfold Memory.consByte
  by_cases hb : b = Memory.unlisted
  · by_cases hx : x = a
    · simp [hb, hx, hm]
    · simp [hb, hx]
  · by_cases hx : x = a
    · simp [hb, hx, Memory.read]
    · have : ¬ a = x := fun h => hx h.symm
      simp [hb, hx, Memory.read, this]

theorem read_unlisted {m : Memory} {a : Nat} (h : ∀ c ∈ m, c.1 ≠ a) :
    Memory.read m a = Memory.unlisted := by
  induction m with
  | nil => rfl
  | cons c m ih =>
    have hc := h c (by simp)
    simp [Memory.read, hc, ih fun c hc => h c (by simp [hc])]

theorem read_insert {m : Memory} {a : Nat} (h : ∀ c ∈ m, c.1 ≠ a) (b : Byte) (x : Nat) :
    Memory.read (Memory.insert m a b) x = if x = a then b else Memory.read m x := by
  induction m with
  | nil => exact read_consByte a b [] x rfl
  | cons c m ih =>
    have hm : ∀ c ∈ m, c.1 ≠ a := fun c hc => h c (by simp [hc])
    have hc := h c (by simp)
    unfold Memory.insert
    split
    · exact read_consByte a b _ x (read_unlisted h)
    · by_cases hcx : c.1 = x
      · have : x ≠ a := hcx ▸ hc
        simp [Memory.read, hcx, this]
      · simp [Memory.read, hcx, ih hm]

theorem read_filter {m : Memory} {a x : Nat} (h : x ≠ a) :
    Memory.read (m.filter fun c => decide (c.1 ≠ a)) x = Memory.read m x := by
  induction m with
  | nil => rfl
  | cons c m ih =>
    by_cases hc : c.1 = a
    · have : c.1 ≠ x := fun hx => h (hx ▸ hc)
      simpa [Memory.read, hc, this, Ne.symm h] using ih
    · by_cases hx : c.1 = x
      · simp [Memory.read, hx, h]
      · simpa [Memory.read, hc, hx] using ih

/-- Everything a read can see of a write, in any memory, canonical or not. -/
theorem read_write (m : Memory) (a : Nat) (b : Byte) (x : Nat) :
    Memory.read (Memory.write m a b) x = if x = a then b else Memory.read m x := by
  unfold Memory.write
  rw [read_insert (by simp)]
  by_cases h : x = a
  · simp [h]
  · rw [if_neg h, if_neg h, read_filter h]

/-! ### Through the state -/

/-- Everything a byte read can see of a byte write. -/
theorem byte_setByte (s : State) (a x : Word) (b : Byte) :
    (s.setByte a b).byte x = if x = a then b else s.byte x := by
  unfold State.byte State.setByte
  rw [read_write]
  by_cases h : x = a
  · simp [h]
  · have : x.toNat ≠ a.toNat := fun e => h (BitVec.eq_of_toNat_eq e)
    simp [h, this]

/-- A list of byte writes leaves every address outside it alone. -/
theorem byte_setBytes_of_not_mem (s : State) (ws : List (Word × Byte)) {x : Word}
    (h : ∀ w ∈ ws, w.1 ≠ x) : (s.setBytes ws).byte x = s.byte x := by
  induction ws generalizing s with
  | nil => rfl
  | cons w ws ih =>
    have hw := h w (by simp)
    rw [setBytes_cons, ih _ fun w hw => h w (by simp [hw]), byte_setByte]
    simp [Ne.symm hw]

/-- A list of byte writes at distinct addresses leaves each of its bytes where it says. -/
theorem byte_setBytes_of_mem (s : State) (ws : List (Word × Byte))
    (hd : ws.Pairwise fun v w => v.1 ≠ w.1) {x : Word} {b : Byte} (h : (x, b) ∈ ws) :
    (s.setBytes ws).byte x = b := by
  induction ws generalizing s with
  | nil => simp at h
  | cons w ws ih =>
    obtain ⟨hw, hd'⟩ := List.pairwise_cons.mp hd
    rw [setBytes_cons]
    rcases List.mem_cons.mp h with rfl | h
    · rw [byte_setBytes_of_not_mem _ _ fun w hm => (hw w hm).symm, byte_setByte]
      simp
    · exact ih _ hd' h

theorem setByte_canonical {s : State} (h : Memory.wf s.mem) (a : Word) (b : Byte) :
    Memory.wf (s.setByte a b).mem :=
  write_wf h a.isLt b

/-- A list of byte writes keeps the canonical form. -/
theorem setBytes_canonical {s : State} (h : Memory.wf s.mem) (ws : List (Word × Byte)) :
    Memory.wf (s.setBytes ws).mem := by
  induction ws generalizing s with
  | nil => exact h
  | cons w ws ih => exact ih (setByte_canonical h w.1 w.2)

/-- Two canonical memories that read alike below 2^32 are the same data. -/
theorem canonical_ext {m n : Memory} (hm : Memory.wf m) (hn : Memory.wf n)
    (h : ∀ a, Memory.read m a = Memory.read n a) : m = n := by
  induction m generalizing n with
  | nil =>
    cases n with
    | nil => rfl
    | cons d n =>
      have := h d.1
      simp [Memory.read] at this
      exact absurd this.symm (hn.2 d (by simp)).2
  | cons c m ih =>
    obtain ⟨hc, hmp⟩ := List.pairwise_cons.mp hm.1
    cases n with
    | nil =>
      have := h c.1
      simp [Memory.read] at this
      exact absurd this (hm.2 c (by simp)).2
    | cons d n =>
      obtain ⟨hd, hnp⟩ := List.pairwise_cons.mp hn.1
      have hcu := (hm.2 c (by simp)).2
      have hdu := (hn.2 d (by simp)).2
      have key : c.1 = d.1 := by
        rcases Nat.lt_trichotomy c.1 d.1 with hlt | he | hgt
        · have hr := h c.1
          rw [read_unlisted (m := d :: n) (a := c.1)] at hr
          · simp [Memory.read] at hr
            exact absurd hr hcu
          · intro e he
            rcases List.mem_cons.mp he with rfl | he
            · omega
            · have := hd e he; omega
        · exact he
        · have hr := h d.1
          rw [read_unlisted (m := c :: m) (a := d.1)] at hr
          · simp [Memory.read] at hr
            exact absurd hr.symm hdu
          · intro e he
            rcases List.mem_cons.mp he with rfl | he
            · omega
            · have := hc e he; omega
      have hv : c.2 = d.2 := by
        have := h c.1
        simpa [Memory.read, key] using this
      have hcd : c = d := Prod.ext key hv
      subst hcd
      congr 1
      refine ih ⟨hmp, fun e he => hm.2 e (by simp [he])⟩ ⟨hnp, fun e he => hn.2 e (by simp [he])⟩
        fun a => ?_
      by_cases ha : c.1 = a
      · rw [read_unlisted (m := m), read_unlisted (m := n)]
        · intro e he; have := hd e he; omega
        · intro e he; have := hc e he; omega
      · have := h a
        simpa [Memory.read, ha] using this

end Sys2Proof.Machine
end

