-- ==== Sys2Proof/Laws/Ops.lean ====
section
/-! SUPPORT. One lemma per shared operation that says once everything it can do. -/

namespace Sys2Proof.Machine

open Sys2Proof Sys2Proof.Safety

/-! ### Traps -/

/-- Who answers a trap: the state's own next answer, or `Env` where it has none. -/
theorem envAnswer_cons {s : State} {a : EnvAnswer} {rest : List EnvAnswer} (h : s.env = a :: rest)
    (e : Fault) : envAnswer e s = a := by simp [envAnswer, h]

theorem envAnswer_nil {s : State} (h : s.env = []) (e : Fault) : envAnswer e s = Config.env e s := by
  simp [envAnswer, h]

/-- Everything `raise` can answer. -/
theorem raise_cases (e : Fault) (s : State) :
    ((resumable e = false ∨ envAnswer e s = .endRun) ∧ raise e s = .fault e) ∨
    ∃ r, envAnswer e s = .resume r ∧ resumable e = true ∧
      raise e s = .next (resumeFrom e r s.answered) := by
  unfold raise
  by_cases hr : resumable e = true
  · rw [if_pos hr]
    cases envAnswer e s with
    | endRun => exact .inl ⟨.inr rfl, rfl⟩
    | resume r => exact .inr ⟨r, rfl, hr, rfl⟩
  · exact .inl ⟨.inl (by simpa using hr), if_neg hr⟩

/-- A trap that goes on was answered by the environment. -/
theorem raise_next {e : Fault} {s t : State} (h : raise e s = .next t) :
    ∃ r, envAnswer e s = .resume r ∧ resumable e = true ∧ t = resumeFrom e r s.answered := by
  rcases raise_cases e s with ⟨_, h'⟩ | ⟨r, he, hr, h'⟩
  · rw [h'] at h; cases h
  · rw [h'] at h; cases h; exact ⟨r, he, hr, rfl⟩

@[simp] theorem raise_not_refused {e : Fault} {s : State} {r : Refusal} :
    raise e s ≠ .refused r := by
  rcases raise_cases e s with ⟨_, h⟩ | ⟨_, _, _, h⟩ <;> rw [h] <;> simp

theorem raise_of_not_resumable {e : Fault} (h : resumable e = false) (s : State) :
    raise e s = .fault e := by simp [raise, h]

theorem raise_of_endRun {e : Fault} {s : State} (h : envAnswer e s = .endRun) :
    raise e s = .fault e := by simp [raise, h]

theorem raise_of_resume {e : Fault} {s : State} {r : Resume} (hr : resumable e = true)
    (h : envAnswer e s = .resume r) : raise e s = .next (resumeFrom e r s.answered) := by
  simp [raise, h, hr]

@[simp] theorem resumeFrom_pc (e : Fault) (r : Resume) (s : State) :
    (resumeFrom e r s).pc = resumePc e r := rfl
@[simp] theorem resumeFrom_params (e : Fault) (r : Resume) (s : State) :
    (resumeFrom e r s).params = s.params := by simp [resumeFrom]
@[simp] theorem resumeFrom_env (e : Fault) (r : Resume) (s : State) :
    (resumeFrom e r s).env = s.env := by simp [resumeFrom]
@[simp] theorem resumeFrom_traps (e : Fault) (r : Resume) (s : State) :
    (resumeFrom e r s).traps = s.traps := by simp [resumeFrom]
@[simp] theorem resumeFrom_draws (e : Fault) (r : Resume) (s : State) :
    (resumeFrom e r s).draws = s.draws := by simp [resumeFrom]
@[simp] theorem resumeFrom_hi (e : Fault) (r : Resume) (s : State) :
    (resumeFrom e r s).hi = r.hi.getD s.hi := by simp [resumeFrom]
@[simp] theorem resumeFrom_lo (e : Fault) (r : Resume) (s : State) :
    (resumeFrom e r s).lo = r.lo.getD s.lo := by simp [resumeFrom]
theorem resumeFrom_reg (e : Fault) (r : Resume) (s : State) (q : RegIdx) :
    (resumeFrom e r s).reg q = (s.setRegs r.regs).reg q := by simp [resumeFrom]
theorem resumeFrom_mem (e : Fault) (r : Resume) (s : State) :
    (resumeFrom e r s).mem = (s.setBytes r.bytes).mem := by
  have h : ∀ (ws : List (Word × Byte)) (u v : State), u.mem = v.mem →
      (u.setBytes ws).mem = (v.setBytes ws).mem := by
    intro ws
    induction ws with
    | nil => exact fun _ _ h => h
    | cons w ws ih =>
      intro u v huv
      exact ih _ _ (by simp [State.setByte, huv])
  simp only [resumeFrom, setPc_mem]
  exact h _ _ _ (by simp)

theorem resumeFrom_byte (e : Fault) (r : Resume) (s : State) (a : Word) :
    (resumeFrom e r s).byte a = (s.setBytes r.bytes).byte a := by
  rw [State.byte, resumeFrom_mem, State.byte]

/-- The last of several writes to a register is the one that stays (R21 for register 0). -/
theorem reg_setRegs_last (s : State) (before : List (RegIdx × Word)) (q : RegIdx) (v : Word)
    (after : List (RegIdx × Word)) (h : ∀ w ∈ after, w.1 ≠ q) :
    (s.setRegs (before ++ (q, v) :: after)).reg q = if q = 0 then 0 else v := by
  have step : (s.setRegs (before ++ (q, v) :: after)).reg q =
      (((s.setRegs before).setReg q v).setRegs after).reg q := by
    simp [State.setRegs]
  rw [step, reg_setRegs_of_not_mem _ _ h, reg_setReg]
  by_cases hq : q = 0
  · subst hq; simp
  · rw [if_pos ⟨rfl, hq⟩, if_neg hq]

/-- The last of several writes to a byte is the one that stays. -/
theorem byte_setBytes_last (s : State) (before : List (Word × Byte)) (a : Word) (b : Byte)
    (after : List (Word × Byte)) (h : ∀ w ∈ after, w.1 ≠ a) :
    (s.setBytes (before ++ (a, b) :: after)).byte a = b := by
  have step : (s.setBytes (before ++ (a, b) :: after)).byte a =
      (((s.setBytes before).setByte a b).setBytes after).byte a := by
    simp [State.setBytes]
  rw [step, byte_setBytes_of_not_mem _ _ h, byte_setByte, if_pos rfl]

/-- Everything that resuming after a trap does. -/
theorem resumeFrom_resumesWith (e : Fault) (r : Resume) (s : State) :
    ResumesWith (resumePc e r) r s (resumeFrom e r s.answered) :=
  ⟨rfl, by simp, by simp,
    fun q h => by rw [resumeFrom_reg, reg_setRegs_of_not_mem _ _ h, answered_reg],
    fun before q v after h hq => by rw [resumeFrom_reg, h, reg_setRegs_last _ _ _ _ _ hq],
    fun a h => by rw [resumeFrom_byte, byte_setBytes_of_not_mem _ _ h, answered_byte],
    fun before a b after h ha => by rw [resumeFrom_byte, h, byte_setBytes_last _ _ _ _ _ ha],
    by simp, by simp, by simp, by simp⟩

/-- A trap that goes on is counted, so it can be told from an instruction's own effect. -/
theorem raise_next_traps_ne {e : Fault} {s t : State} (h : raise e s = .next t) :
    t.traps ≠ s.traps := by
  obtain ⟨r, -, -, rfl⟩ := raise_next h
  simp

/-! ### Accesses -/

/-- Everything `access` can answer. -/
theorem access_cases (kind : AccessKind) (align : Nat) (ea lo : Word) (n : Nat) (s : State)
    (go : Result) :
    (ea.toNat % align ≠ 0 ∧
      access kind align ea lo n s go = raise (.addressError kind ea s.pc) s) ∨
    (ea.toNat % align = 0 ∧ s.memValid lo n kind = false ∧
      access kind align ea lo n s go = .fault (.busFault kind lo s.pc)) ∨
    (ea.toNat % align = 0 ∧ s.memValid lo n kind = true ∧
      access kind align ea lo n s go = go) := by
  unfold access
  by_cases h1 : ea.toNat % align ≠ 0
  · exact .inl ⟨h1, if_pos h1⟩
  · have h1' : ea.toNat % align = 0 := by omega
    rw [if_neg h1]
    by_cases h2 : s.memValid lo n kind = true
    · exact .inr (.inr ⟨h1', h2, if_pos h2⟩)
    · refine .inr (.inl ⟨h1', by simpa using h2, ?_⟩)
      rw [if_neg h2, raise_of_not_resumable rfl]

theorem access_ok {kind : AccessKind} {align : Nat} {ea lo : Word} {n : Nat} {s : State}
    {go : Result} (ha : ea.toNat % align = 0) (hv : s.memValid lo n kind = true) :
    access kind align ea lo n s go = go := by simp [access, ha, hv]

theorem access_misaligned {kind : AccessKind} {align : Nat} {ea lo : Word} {n : Nat} {s : State}
    {go : Result} (ha : ea.toNat % align ≠ 0) :
    access kind align ea lo n s go = raise (.addressError kind ea s.pc) s := by
  simp [access, ha]

theorem access_invalid {kind : AccessKind} {align : Nat} {ea lo : Word} {n : Nat} {s : State}
    {go : Result} (ha : ea.toNat % align = 0) (hv : s.memValid lo n kind = false) :
    access kind align ea lo n s go = .fault (.busFault kind lo s.pc) := by
  simp [access, ha, hv, raise_of_not_resumable (e := .busFault kind lo s.pc) rfl]

/-- An access that goes on either took place or was a trap the environment answered. -/
theorem access_next {kind : AccessKind} {align : Nat} {ea lo : Word} {n : Nat} {s t : State}
    {go : Result} (h : access kind align ea lo n s go = .next t) :
    (ea.toNat % align = 0 ∧ s.memValid lo n kind = true ∧ go = .next t) ∨
    (ea.toNat % align ≠ 0 ∧ raise (.addressError kind ea s.pc) s = .next t) := by
  rcases access_cases kind align ea lo n s go with ⟨ha, e⟩ | ⟨_, _, e⟩ | ⟨ha, hv, e⟩
  · exact .inr ⟨ha, e ▸ h⟩
  · rw [e] at h; cases h
  · exact .inl ⟨ha, hv, e ▸ h⟩

/-! ### How an instruction ends -/

/-- The state `writeBack` leaves. -/
theorem writeBack_writes (r : RegIdx) (v : Word) (s : State) :
    ∃ t, writeBack r v s = .next t ∧ WritesReg r v s t :=
  ⟨_, rfl, by simp, fun q => by simp [reg_setReg], ⟨by simp, by simp⟩, fun a => by simp,
    by simp, by simp, by simp, by simp⟩

/-- The state `writeHiLo` leaves. -/
theorem writeHiLo_writes (h l : Word) (s : State) :
    ∃ t, writeHiLo h l s = .next t ∧ WritesHiLo h l s t :=
  ⟨_, rfl, by simp, fun q => by simp, by simp, by simp, fun a => by simp,
    by simp, by simp, by simp, by simp⟩

/-- Everything `writeChecked` can answer. -/
theorem writeChecked_cases (r : RegIdx) (z : Int) (s : State) :
    (fitsSigned z = true ∧ writeChecked r z s = writeBack r (BitVec.ofInt 32 z) s) ∨
    (fitsSigned z = false ∧ writeChecked r z s = raise (.integerOverflow s.pc) s) := by
  unfold writeChecked
  cases h : fitsSigned z
  · exact .inr ⟨rfl, by simp⟩
  · exact .inl ⟨rfl, by simp⟩

/-- R118 in numbers. -/
theorem fitsSigned_iff {z : Int} :
    fitsSigned z = true ↔ -2 ^ 31 ≤ z ∧ z ≤ 2 ^ 31 - 1 := by simp [fitsSigned]

/-- A result that fits keeps its value. -/
theorem toInt_ofInt_of_fits {z : Int} (h : fitsSigned z = true) :
    (BitVec.ofInt 32 z).toInt = z := by
  obtain ⟨h1, h2⟩ := fitsSigned_iff.mp h
  rw [BitVec.toInt_ofInt]
  apply Int.bmod_eq_of_le <;> omega

/-- The state `storeBack` leaves, when every address it writes is one `stored` holds of. -/
theorem storeBack_changes (ws : List (Word × Byte)) (s : State) (stored : Word → Prop)
    (h : ∀ w ∈ ws, stored w.1) :
    ∃ t, storeBack ws s = .next t ∧ ChangesOnlyBytes stored s t ∧
      ∀ a, t.byte a = (s.setBytes ws).byte a :=
  ⟨_, rfl, ⟨by simp, fun q => by simp, ⟨by simp, by simp⟩,
    fun a ha => by
      rw [advance_byte]
      exact byte_setBytes_of_not_mem _ _ fun w hw (e : w.1 = a) => ha (e ▸ h w hw),
    by simp, by simp, by simp, by simp⟩, fun a => rfl⟩

/-! ### Aligned words (R41, R186) -/

theorem sig_le (be : Bool) (a : Word) : sig be a ≤ 3 := by
  unfold sig; split <;> omega

theorem toNat_wordBase (a : Word) : (wordBase a).toNat = a.toNat - a.toNat % 4 := by
  have h : wordBase a = (a >>> 2) <<< 2 := by
    unfold wordBase
    ext i hi
    interval_cases i <;> simp
  have ha := a.isLt
  rw [h]
  simp only [BitVec.toNat_shiftLeft, BitVec.toNat_ushiftRight, Nat.shiftLeft_eq,
    Nat.shiftRight_eq_div_pow]
  omega

/-- An address is the one its significance names in its aligned word. -/
theorem sigAddr_sig (be : Bool) (a : Word) : sigAddr be (wordBase a) (sig be a) = a := by
  apply BitVec.eq_of_toNat_eq
  have ha := a.isLt
  have hb := toNat_wordBase a
  cases be <;> simp only [sigAddr, sig, if_true, if_false, Bool.false_eq_true] <;>
    rw [BitVec.toNat_add, BitVec.toNat_ofNat, hb] <;> omega

theorem toNat_sigAddr (be : Bool) (a : Word) {k : Nat} (hk : k ≤ 3) :
    (sigAddr be (wordBase a) k).toNat = (wordBase a).toNat + if be then 3 - k else k := by
  have ha := a.isLt
  have hb := toNat_wordBase a
  cases be <;> simp only [sigAddr, if_true, if_false, Bool.false_eq_true] <;>
    rw [BitVec.toNat_add, BitVec.toNat_ofNat] <;> omega

theorem wordBase_sigAddr (be : Bool) (a : Word) {k : Nat} (hk : k ≤ 3) :
    wordBase (sigAddr be (wordBase a) k) = wordBase a := by
  apply BitVec.eq_of_toNat_eq
  rw [toNat_wordBase, toNat_sigAddr be a hk, toNat_wordBase]
  split <;> omega

theorem sig_sigAddr (be : Bool) (a : Word) {k : Nat} (hk : k ≤ 3) :
    sig be (sigAddr be (wordBase a) k) = k := by
  have h := toNat_sigAddr be a hk
  have hb := toNat_wordBase a
  unfold sig
  rw [h, hb]
  cases be <;> simp only [if_true, if_false, Bool.false_eq_true] <;> omega

/-- Two addresses in one aligned word with the same significance are the same. -/
theorem eq_of_sig {be : Bool} {a b : Word} (h : wordBase a = wordBase b)
    (hs : sig be a = sig be b) : a = b := by
  rw [← sigAddr_sig be a, ← sigAddr_sig be b, h, hs]

/-- The word at the base of `a`, byte by significance (R41). -/
theorem sigByte_readWord (s : State) (a : Word) {k : Nat} (hk : k ≤ 3) :
    sigByte (s.readWord (wordBase a)) k = s.byte (sigAddr s.params.bigEndian (wordBase a) k) := by
  have e0 : wordBase a + 0#32 = wordBase a := BitVec.add_zero _
  unfold State.readWord wordOfBytes sigByte sigAddr
  cases s.params.bigEndian <;>
  · simp only [if_true, if_false, Bool.false_eq_true]
    apply BitVec.eq_of_toNat_eq
    rw [toNat_field]
    change ((_ ++ _ ++ _ ++ _ : BitVec (8 + 8 + 8 + 8))).toNat / _ % _ = _
    simp only [toNat_append_eq]
    have h0 := (s.byte (wordBase a)).isLt
    have h1 := (s.byte (wordBase a + 1#32)).isLt
    have h2 := (s.byte (wordBase a + 2#32)).isLt
    have h3 := (s.byte (wordBase a + 3#32)).isLt
    interval_cases k <;>
      simp only [BitVec.ofNat_eq_ofNat, e0, Nat.reduceSub, Nat.reduceMul, Nat.reducePow] <;> omega

theorem toNat_wordOfSig (f : Nat → Byte) : (wordOfSig f).toNat =
    (f 3).toNat * 2 ^ 24 + (f 2).toNat * 2 ^ 16 + (f 1).toNat * 2 ^ 8 + (f 0).toNat := by
  change ((f 3 ++ f 2 ++ f 1 ++ f 0 : BitVec (8 + 8 + 8 + 8))).toNat = _
  simp only [toNat_append_eq]
  omega

@[simp] theorem sigByte_wordOfSig (f : Nat → Byte) {k : Nat} (hk : k ≤ 3) :
    sigByte (wordOfSig f) k = f k := by
  apply BitVec.eq_of_toNat_eq
  rw [sigByte, toNat_field, toNat_wordOfSig]
  have h0 := (f 0).isLt
  have h1 := (f 1).isLt
  have h2 := (f 2).isLt
  have h3 := (f 3).isLt
  interval_cases k <;> omega

/-- A word is its four bytes. -/
theorem wordOfSig_sigByte (v : Word) : wordOfSig (sigByte v) = v := by
  apply BitVec.eq_of_toNat_eq
  rw [toNat_wordOfSig]
  simp only [sigByte, toNat_field]
  have := v.isLt
  omega

/-- Two words with the same four bytes are the same. -/
theorem eq_of_sigByte {v w : Word} (h : ∀ k ≤ 3, sigByte v k = sigByte w k) : v = w := by
  rw [← wordOfSig_sigByte v, ← wordOfSig_sigByte w]
  simp only [wordOfSig, h 0 (by omega), h 1 (by omega), h 2 (by omega), h 3 (by omega)]

/-! ### Partial-word instructions (R187, R188, R193, R194) -/

/-- The register bytes `lwl` leaves. -/
theorem sigByte_leftMerge (s : State) (ea old : Word) {i : Nat} (hi : i ≤ 3) :
    sigByte (leftMerge s ea old) i =
      if 3 - sig s.params.bigEndian ea ≤ i then
        sigByte (s.readWord (wordBase ea)) (i - (3 - sig s.params.bigEndian ea))
      else sigByte old i := by
  have hk := sig_le s.params.bigEndian ea
  unfold leftMerge
  rw [sigByte_wordOfSig _ hi]
  split
  · rw [sigByte_readWord _ _ (by omega)]
  · rfl

/-- The register bytes `lwr` leaves. -/
theorem sigByte_rightMerge (s : State) (ea old : Word) {i : Nat} (hi : i ≤ 3) :
    sigByte (rightMerge s ea old) i =
      if i < 4 - sig s.params.bigEndian ea then
        sigByte (s.readWord (wordBase ea)) (i + sig s.params.bigEndian ea)
      else sigByte old i := by
  have hk := sig_le s.params.bigEndian ea
  unfold rightMerge
  rw [sigByte_wordOfSig _ hi]
  split
  · rw [sigByte_readWord _ _ (by omega)]
  · rfl

theorem mem_leftStore {be : Bool} {ea v : Word} {w : Word × Byte} :
    w ∈ leftStore be ea v ↔
      wordBase w.1 = wordBase ea ∧ sig be w.1 ≤ sig be ea ∧
        w.2 = sigByte v (3 - (sig be ea - sig be w.1)) := by
  have hk := sig_le be ea
  constructor
  · intro h
    simp only [leftStore, List.mem_map, List.mem_range] at h
    obtain ⟨j, hj, rfl⟩ := h
    refine ⟨wordBase_sigAddr be ea (by omega), ?_, ?_⟩
    · rw [sig_sigAddr be ea (by omega)]; omega
    · rw [sig_sigAddr be ea (by omega)]
      show sigByte v _ = sigByte v _
      congr 1
      omega
  · rintro ⟨hb, hs, hw⟩
    simp only [leftStore, List.mem_map, List.mem_range]
    refine ⟨sig be ea - sig be w.1, by omega, Prod.ext ?_ hw.symm⟩
    show sigAddr be (wordBase ea) _ = w.1
    rw [← hb, show sig be ea - (sig be ea - sig be w.1) = sig be w.1 by omega, sigAddr_sig]

theorem mem_rightStore {be : Bool} {ea v : Word} {w : Word × Byte} :
    w ∈ rightStore be ea v ↔
      wordBase w.1 = wordBase ea ∧ sig be ea ≤ sig be w.1 ∧
        w.2 = sigByte v (sig be w.1 - sig be ea) := by
  have hk := sig_le be ea
  constructor
  · intro h
    simp only [rightStore, List.mem_map, List.mem_range] at h
    obtain ⟨j, hj, rfl⟩ := h
    refine ⟨wordBase_sigAddr be ea (by omega), ?_, ?_⟩
    · rw [sig_sigAddr be ea (by omega)]; omega
    · rw [sig_sigAddr be ea (by omega)]
      show sigByte v _ = sigByte v _
      congr 1
      omega
  · rintro ⟨hb, hs, hw⟩
    have hk' := sig_le be w.1
    simp only [rightStore, List.mem_map, List.mem_range]
    refine ⟨sig be w.1 - sig be ea, by omega, Prod.ext ?_ hw.symm⟩
    show sigAddr be (wordBase ea) _ = w.1
    rw [← hb, show sig be ea + (sig be w.1 - sig be ea) = sig be w.1 by omega, sigAddr_sig]

theorem leftStore_distinct (be : Bool) (ea v : Word) :
    (leftStore be ea v).Pairwise fun x y => x.1 ≠ y.1 := by
  have hk := sig_le be ea
  unfold leftStore
  refine List.pairwise_map.mpr (List.Pairwise.imp_of_mem ?_ List.pairwise_lt_range)
  intro i j hi hj hij h
  have hi' := List.mem_range.mp hi
  have hj' := List.mem_range.mp hj
  have := congrArg (sig be) h
  simp only at this
  rw [sig_sigAddr be ea (by omega), sig_sigAddr be ea (by omega)] at this
  omega

theorem rightStore_distinct (be : Bool) (ea v : Word) :
    (rightStore be ea v).Pairwise fun x y => x.1 ≠ y.1 := by
  have hk := sig_le be ea
  unfold rightStore
  refine List.pairwise_map.mpr (List.Pairwise.imp_of_mem ?_ List.pairwise_lt_range)
  intro i j hi hj hij h
  have hi' := List.mem_range.mp hi
  have hj' := List.mem_range.mp hj
  have := congrArg (sig be) h
  simp only at this
  rw [sig_sigAddr be ea (by omega), sig_sigAddr be ea (by omega)] at this
  omega

/-- Memory after `swl`'s bytes are stored. -/
theorem byte_leftStore (s : State) (be : Bool) (ea v a : Word) :
    (s.setBytes (leftStore be ea v)).byte a =
      if wordBase a = wordBase ea ∧ sig be a ≤ sig be ea then
        sigByte v (3 - (sig be ea - sig be a))
      else s.byte a := by
  split
  · next h =>
    exact byte_setBytes_of_mem s _ (leftStore_distinct be ea v)
      (mem_leftStore.mpr ⟨h.1, h.2, rfl⟩)
  · next h =>
    exact byte_setBytes_of_not_mem s _ fun w hw e => h (by
      have := mem_leftStore.mp hw
      rw [e] at this
      exact ⟨this.1, this.2.1⟩)

/-- Memory after `swr`'s bytes are stored. -/
theorem byte_rightStore (s : State) (be : Bool) (ea v a : Word) :
    (s.setBytes (rightStore be ea v)).byte a =
      if wordBase a = wordBase ea ∧ sig be ea ≤ sig be a then
        sigByte v (sig be a - sig be ea)
      else s.byte a := by
  split
  · next h =>
    exact byte_setBytes_of_mem s _ (rightStore_distinct be ea v)
      (mem_rightStore.mpr ⟨h.1, h.2, rfl⟩)
  · next h =>
    exact byte_setBytes_of_not_mem s _ fun w hw e => h (by
      have := mem_rightStore.mp hw
      rw [e] at this
      exact ⟨this.1, this.2.1⟩)

/-! ### Whole bytes, halfwords and words (R42, R43) -/

theorem mem_storeBytes {be : Bool} {a v : Word} {n : Nat} (hn : n ≤ 4) {w : Word × Byte} :
    w ∈ storeBytes be a n v ↔ InSpan a n w.1 ∧ w.2 = byteOfWord be n v (w.1 - a).toNat := by
  constructor
  · intro h
    simp only [storeBytes, List.mem_map, List.mem_range] at h
    obtain ⟨i, hi, rfl⟩ := h
    have : (a + BitVec.ofNat 32 i - a).toNat = i := by
      rw [BitVec.add_comm, BitVec.add_sub_cancel, BitVec.toNat_ofNat]; omega
    exact ⟨by show (a + BitVec.ofNat 32 i - a).toNat < n; omega, by rw [this]⟩
  · rintro ⟨h, hw⟩
    simp only [storeBytes, List.mem_map, List.mem_range]
    refine ⟨(w.1 - a).toNat, h, Prod.ext ?_ hw.symm⟩
    show a + BitVec.ofNat 32 (w.1 - a).toNat = w.1
    rw [BitVec.ofNat_toNat, BitVec.setWidth_eq, BitVec.add_comm, BitVec.sub_add_cancel]

theorem storeBytes_distinct (be : Bool) (a v : Word) {n : Nat} (hn : n ≤ 4) :
    (storeBytes be a n v).Pairwise fun x y => x.1 ≠ y.1 := by
  unfold storeBytes
  refine List.pairwise_map.mpr (List.Pairwise.imp_of_mem ?_ List.pairwise_lt_range)
  intro i j hi hj hij h
  have hi' := List.mem_range.mp hi
  have hj' := List.mem_range.mp hj
  have := congrArg BitVec.toNat h
  simp only [BitVec.toNat_add, BitVec.toNat_ofNat] at this
  have := a.isLt
  omega

/-- Memory after the bytes of a whole access are stored. -/
theorem byte_storeBytes (s : State) (be : Bool) (a v : Word) {n : Nat} (hn : n ≤ 4) (x : Word) :
    (s.setBytes (storeBytes be a n v)).byte x =
      if (x - a).toNat < n then byteOfWord be n v (x - a).toNat else s.byte x := by
  split
  · next h =>
    exact byte_setBytes_of_mem s _ (storeBytes_distinct be a v hn)
      ((mem_storeBytes hn).mpr ⟨h, rfl⟩)
  · next h =>
    exact byte_setBytes_of_not_mem s _ fun w hw e => h (by
      have := (mem_storeBytes hn).mp hw
      rw [e] at this
      exact this.1)

@[simp] theorem memWrite_pc (s : State) (a : Word) (n : Nat) (v : Word) :
    (s.memWrite a n v).pc = s.pc := by simp [State.memWrite]
@[simp] theorem memWrite_params (s : State) (a : Word) (n : Nat) (v : Word) :
    (s.memWrite a n v).params = s.params := by simp [State.memWrite]

/-- R43: a following `MemRead(a, 4)` returns `v`. -/
theorem readWord_memWrite (s : State) (a v : Word) : (s.memWrite a 4 v).readWord a = v := by
  have h : ∀ i < 4, (s.memWrite a 4 v).byte (a + BitVec.ofNat 32 i) =
      byteOfWord s.params.bigEndian 4 v i := by
    intro i hi
    have e : (a + BitVec.ofNat 32 i - a).toNat = i := by
      rw [BitVec.add_comm, BitVec.add_sub_cancel, BitVec.toNat_ofNat]; omega
    rw [State.memWrite, byte_storeBytes _ _ _ _ (by omega), e, if_pos hi]
  have h0 := h 0 (by omega)
  rw [BitVec.add_zero] at h0
  unfold State.readWord
  rw [h0, show (1 : Word) = BitVec.ofNat 32 1 from rfl, show (2 : Word) = BitVec.ofNat 32 2 from rfl,
    show (3 : Word) = BitVec.ofNat 32 3 from rfl, h 1 (by omega), h 2 (by omega), h 3 (by omega),
    memWrite_params, wordOfBytes_byteOfWord]

/-- Placing an instruction and stepping runs exactly it, where the fetch is aligned and the address
exists. -/
theorem step_withFetchWord (s : State) (nbits w : Nat) {i : Instr} (ha : s.pc.toNat % 4 = 0)
    (hv : s.memValid s.pc 4 .fetch = true) (hi : decodeWord (tableWord nbits w) = .ok i) :
    step (s.withFetchWord nbits w) = exec i (s.withFetchWord nbits w) := by
  have hp : (s.withFetchWord nbits w).pc = s.pc := by simp [State.withFetchWord]
  have hm : (s.withFetchWord nbits w).memValid s.pc 4 .fetch = true := by
    simpa [State.withFetchWord, State.memValid] using hv
  have hr : (s.withFetchWord nbits w).readWord s.pc = tableWord nbits w :=
    readWord_memWrite s s.pc _
  unfold step
  rw [hp, access_ok ha hm, hr, hi]

end Sys2Proof.Machine
end

