-- ==== Sys2Proof/Laws/PerInstr.lean ====
section
/-! SUPPORT. Statements about every instruction as syntax, one lemma per constructor. -/

namespace Sys2Proof.Laws

open Sys2Proof

/-- The primary opcode of an instruction, its cell of R83 (000000 for the layout R instructions of R81,
000001 for those of R82). -/
def primaryOp : Instr → BitVec 6
  | .add .. => 0b000000#6
  | .addi .. => 0b001000#6
  | .addiu .. => 0b001001#6
  | .addu .. => 0b000000#6
  | .and .. => 0b000000#6
  | .andi .. => 0b001100#6
  | .lui .. => 0b001111#6
  | .nor .. => 0b000000#6
  | .or .. => 0b000000#6
  | .ori .. => 0b001101#6
  | .slt .. => 0b000000#6
  | .slti .. => 0b001010#6
  | .sltiu .. => 0b001011#6
  | .sltu .. => 0b000000#6
  | .sub .. => 0b000000#6
  | .subu .. => 0b000000#6
  | .xor .. => 0b000000#6
  | .xori .. => 0b001110#6
  | .beq .. => 0b000100#6
  | .bgez .. => 0b000001#6
  | .bgezal .. => 0b000001#6
  | .bgtz .. => 0b000111#6
  | .blez .. => 0b000110#6
  | .bltzal .. => 0b000001#6
  | .bltz .. => 0b000001#6
  | .bne .. => 0b000101#6
  | .j .. => 0b000010#6
  | .jal .. => 0b000011#6
  | .jalr .. => 0b000000#6
  | .jr .. => 0b000000#6
  | .div .. => 0b000000#6
  | .divu .. => 0b000000#6
  | .mfhi .. => 0b000000#6
  | .mflo .. => 0b000000#6
  | .mthi .. => 0b000000#6
  | .mtlo .. => 0b000000#6
  | .mult .. => 0b000000#6
  | .multu .. => 0b000000#6
  | .lb .. => 0b100000#6
  | .lbu .. => 0b100100#6
  | .lh .. => 0b100001#6
  | .lhu .. => 0b100101#6
  | .lw .. => 0b100011#6
  | .lwl .. => 0b100010#6
  | .lwr .. => 0b100110#6
  | .sb .. => 0b101000#6
  | .sh .. => 0b101001#6
  | .sw .. => 0b101011#6
  | .swl .. => 0b101010#6
  | .swr .. => 0b101110#6
  | .sll .. => 0b000000#6
  | .sllv .. => 0b000000#6
  | .sra .. => 0b000000#6
  | .srav .. => 0b000000#6
  | .srl .. => 0b000000#6
  | .srlv .. => 0b000000#6
  | .syscall => 0b000000#6

/-- The word of an instruction carries the instruction's primary opcode in bits 31:26. -/
def PrimaryOpcode.Statement (i : Instr) : Prop := opOf (encode i) = primaryOp i

theorem PrimaryOpcode.add (rd rs rt : RegIdx) : PrimaryOpcode.Statement (.add rd rs rt) :=
  opOf_encodeR _ _ _ _ _

theorem PrimaryOpcode.addi (rt rs : RegIdx) (imm : Imm16) : PrimaryOpcode.Statement (.addi rt rs imm) :=
  opOf_encodeI _ _ _ _

theorem PrimaryOpcode.addiu (rt rs : RegIdx) (imm : Imm16) : PrimaryOpcode.Statement (.addiu rt rs imm) :=
  opOf_encodeI _ _ _ _

theorem PrimaryOpcode.addu (rd rs rt : RegIdx) : PrimaryOpcode.Statement (.addu rd rs rt) :=
  opOf_encodeR _ _ _ _ _

theorem PrimaryOpcode.and (rd rs rt : RegIdx) : PrimaryOpcode.Statement (.and rd rs rt) :=
  opOf_encodeR _ _ _ _ _

theorem PrimaryOpcode.andi (rt rs : RegIdx) (imm : Imm16) : PrimaryOpcode.Statement (.andi rt rs imm) :=
  opOf_encodeI _ _ _ _

theorem PrimaryOpcode.lui (rt : RegIdx) (imm : Imm16) : PrimaryOpcode.Statement (.lui rt imm) :=
  opOf_encodeI _ _ _ _

theorem PrimaryOpcode.nor (rd rs rt : RegIdx) : PrimaryOpcode.Statement (.nor rd rs rt) :=
  opOf_encodeR _ _ _ _ _

theorem PrimaryOpcode.or (rd rs rt : RegIdx) : PrimaryOpcode.Statement (.or rd rs rt) :=
  opOf_encodeR _ _ _ _ _

theorem PrimaryOpcode.ori (rt rs : RegIdx) (imm : Imm16) : PrimaryOpcode.Statement (.ori rt rs imm) :=
  opOf_encodeI _ _ _ _

theorem PrimaryOpcode.slt (rd rs rt : RegIdx) : PrimaryOpcode.Statement (.slt rd rs rt) :=
  opOf_encodeR _ _ _ _ _

theorem PrimaryOpcode.slti (rt rs : RegIdx) (imm : Imm16) : PrimaryOpcode.Statement (.slti rt rs imm) :=
  opOf_encodeI _ _ _ _

theorem PrimaryOpcode.sltiu (rt rs : RegIdx) (imm : Imm16) : PrimaryOpcode.Statement (.sltiu rt rs imm) :=
  opOf_encodeI _ _ _ _

theorem PrimaryOpcode.sltu (rd rs rt : RegIdx) : PrimaryOpcode.Statement (.sltu rd rs rt) :=
  opOf_encodeR _ _ _ _ _

theorem PrimaryOpcode.sub (rd rs rt : RegIdx) : PrimaryOpcode.Statement (.sub rd rs rt) :=
  opOf_encodeR _ _ _ _ _

theorem PrimaryOpcode.subu (rd rs rt : RegIdx) : PrimaryOpcode.Statement (.subu rd rs rt) :=
  opOf_encodeR _ _ _ _ _

theorem PrimaryOpcode.xor (rd rs rt : RegIdx) : PrimaryOpcode.Statement (.xor rd rs rt) :=
  opOf_encodeR _ _ _ _ _

theorem PrimaryOpcode.xori (rt rs : RegIdx) (imm : Imm16) : PrimaryOpcode.Statement (.xori rt rs imm) :=
  opOf_encodeI _ _ _ _

theorem PrimaryOpcode.beq (rs rt : RegIdx) (imm : Imm16) : PrimaryOpcode.Statement (.beq rs rt imm) :=
  opOf_encodeI _ _ _ _

theorem PrimaryOpcode.bgez (rs : RegIdx) (imm : Imm16) : PrimaryOpcode.Statement (.bgez rs imm) :=
  opOf_encodeI _ _ _ _

theorem PrimaryOpcode.bgezal (rs : RegIdx) (imm : Imm16) : PrimaryOpcode.Statement (.bgezal rs imm) :=
  opOf_encodeI _ _ _ _

theorem PrimaryOpcode.bgtz (rs : RegIdx) (imm : Imm16) : PrimaryOpcode.Statement (.bgtz rs imm) :=
  opOf_encodeI _ _ _ _

theorem PrimaryOpcode.blez (rs : RegIdx) (imm : Imm16) : PrimaryOpcode.Statement (.blez rs imm) :=
  opOf_encodeI _ _ _ _

theorem PrimaryOpcode.bltzal (rs : RegIdx) (imm : Imm16) : PrimaryOpcode.Statement (.bltzal rs imm) :=
  opOf_encodeI _ _ _ _

theorem PrimaryOpcode.bltz (rs : RegIdx) (imm : Imm16) : PrimaryOpcode.Statement (.bltz rs imm) :=
  opOf_encodeI _ _ _ _

theorem PrimaryOpcode.bne (rs rt : RegIdx) (imm : Imm16) : PrimaryOpcode.Statement (.bne rs rt imm) :=
  opOf_encodeI _ _ _ _

theorem PrimaryOpcode.j (imm : Imm26) : PrimaryOpcode.Statement (.j imm) :=
  opOf_encodeJ _ _

theorem PrimaryOpcode.jal (imm : Imm26) : PrimaryOpcode.Statement (.jal imm) :=
  opOf_encodeJ _ _

theorem PrimaryOpcode.jalr (rd rs : RegIdx) : PrimaryOpcode.Statement (.jalr rd rs) :=
  opOf_encodeR _ _ _ _ _

theorem PrimaryOpcode.jr (rs : RegIdx) : PrimaryOpcode.Statement (.jr rs) :=
  opOf_encodeR _ _ _ _ _

theorem PrimaryOpcode.div (rs rt : RegIdx) : PrimaryOpcode.Statement (.div rs rt) :=
  opOf_encodeR _ _ _ _ _

theorem PrimaryOpcode.divu (rs rt : RegIdx) : PrimaryOpcode.Statement (.divu rs rt) :=
  opOf_encodeR _ _ _ _ _

theorem PrimaryOpcode.mfhi (rd : RegIdx) : PrimaryOpcode.Statement (.mfhi rd) :=
  opOf_encodeR _ _ _ _ _

theorem PrimaryOpcode.mflo (rd : RegIdx) : PrimaryOpcode.Statement (.mflo rd) :=
  opOf_encodeR _ _ _ _ _

theorem PrimaryOpcode.mthi (rs : RegIdx) : PrimaryOpcode.Statement (.mthi rs) :=
  opOf_encodeR _ _ _ _ _

theorem PrimaryOpcode.mtlo (rs : RegIdx) : PrimaryOpcode.Statement (.mtlo rs) :=
  opOf_encodeR _ _ _ _ _

theorem PrimaryOpcode.mult (rs rt : RegIdx) : PrimaryOpcode.Statement (.mult rs rt) :=
  opOf_encodeR _ _ _ _ _

theorem PrimaryOpcode.multu (rs rt : RegIdx) : PrimaryOpcode.Statement (.multu rs rt) :=
  opOf_encodeR _ _ _ _ _

theorem PrimaryOpcode.lb (rt : RegIdx) (offset : Imm16) (rs : RegIdx) : PrimaryOpcode.Statement (.lb rt offset rs) :=
  opOf_encodeI _ _ _ _

theorem PrimaryOpcode.lbu (rt : RegIdx) (offset : Imm16) (rs : RegIdx) : PrimaryOpcode.Statement (.lbu rt offset rs) :=
  opOf_encodeI _ _ _ _

theorem PrimaryOpcode.lh (rt : RegIdx) (offset : Imm16) (rs : RegIdx) : PrimaryOpcode.Statement (.lh rt offset rs) :=
  opOf_encodeI _ _ _ _

theorem PrimaryOpcode.lhu (rt : RegIdx) (offset : Imm16) (rs : RegIdx) : PrimaryOpcode.Statement (.lhu rt offset rs) :=
  opOf_encodeI _ _ _ _

theorem PrimaryOpcode.lw (rt : RegIdx) (offset : Imm16) (rs : RegIdx) : PrimaryOpcode.Statement (.lw rt offset rs) :=
  opOf_encodeI _ _ _ _

theorem PrimaryOpcode.lwl (rt : RegIdx) (offset : Imm16) (rs : RegIdx) : PrimaryOpcode.Statement (.lwl rt offset rs) :=
  opOf_encodeI _ _ _ _

theorem PrimaryOpcode.lwr (rt : RegIdx) (offset : Imm16) (rs : RegIdx) : PrimaryOpcode.Statement (.lwr rt offset rs) :=
  opOf_encodeI _ _ _ _

theorem PrimaryOpcode.sb (rt : RegIdx) (offset : Imm16) (rs : RegIdx) : PrimaryOpcode.Statement (.sb rt offset rs) :=
  opOf_encodeI _ _ _ _

theorem PrimaryOpcode.sh (rt : RegIdx) (offset : Imm16) (rs : RegIdx) : PrimaryOpcode.Statement (.sh rt offset rs) :=
  opOf_encodeI _ _ _ _

theorem PrimaryOpcode.sw (rt : RegIdx) (offset : Imm16) (rs : RegIdx) : PrimaryOpcode.Statement (.sw rt offset rs) :=
  opOf_encodeI _ _ _ _

theorem PrimaryOpcode.swl (rt : RegIdx) (offset : Imm16) (rs : RegIdx) : PrimaryOpcode.Statement (.swl rt offset rs) :=
  opOf_encodeI _ _ _ _

theorem PrimaryOpcode.swr (rt : RegIdx) (offset : Imm16) (rs : RegIdx) : PrimaryOpcode.Statement (.swr rt offset rs) :=
  opOf_encodeI _ _ _ _

theorem PrimaryOpcode.sll (rd rt : RegIdx) (sa : Nat) : PrimaryOpcode.Statement (.sll rd rt sa) :=
  opOf_encodeR _ _ _ _ _

theorem PrimaryOpcode.sllv (rd rt rs : RegIdx) : PrimaryOpcode.Statement (.sllv rd rt rs) :=
  opOf_encodeR _ _ _ _ _

theorem PrimaryOpcode.sra (rd rt : RegIdx) (sa : Nat) : PrimaryOpcode.Statement (.sra rd rt sa) :=
  opOf_encodeR _ _ _ _ _

theorem PrimaryOpcode.srav (rd rt rs : RegIdx) : PrimaryOpcode.Statement (.srav rd rt rs) :=
  opOf_encodeR _ _ _ _ _

theorem PrimaryOpcode.srl (rd rt : RegIdx) (sa : Nat) : PrimaryOpcode.Statement (.srl rd rt sa) :=
  opOf_encodeR _ _ _ _ _

theorem PrimaryOpcode.srlv (rd rt rs : RegIdx) : PrimaryOpcode.Statement (.srlv rd rt rs) :=
  opOf_encodeR _ _ _ _ _

theorem PrimaryOpcode.syscall : PrimaryOpcode.Statement .syscall :=
  opOf_encodeR _ _ _ _ _

end Sys2Proof.Laws
end

