-- ==== Sys2Proof/Tests/Slice0.lean ====
section
/-! SUPPORT. Tests: ill-formed terms refused, one written-out word per constructor, small steps taken
from the vectors of spec/95_test_vectors.md (named in the comments), and for every statement with
hypotheses a state that meets them. -/

namespace Sys2Proof.Tests

open Sys2Proof Sys2Proof.Machine Sys2Proof.Safety

/-! ### Well-formedness -/

theorem test_wellFormed_refuses_sll_32 : (Instr.sll 1 2 32).wellFormed = false := by decide
theorem test_wellFormed_refuses_sra_32 : (Instr.sra 1 2 32).wellFormed = false := by decide
theorem test_wellFormed_refuses_srl_32 : (Instr.srl 1 2 32).wellFormed = false := by decide
theorem test_wellFormed_admits_31 : (Instr.sll 1 2 31).wellFormed = true := by decide

/-! ### Decoding: each word written out from the row of R80, rs = 01001, rt = 10010, rd = 11011,
sa = 10101 -/

theorem test_decode_arithmetic :
    decodeWord 0b00000001001100101101100000100000#32 = .ok (.add 27 9 18) ∧
    decodeWord 0b00100001001100101000010000100001#32 = .ok (.addi 18 9 0x8421) ∧
    decodeWord 0b00100101001100101000010000100001#32 = .ok (.addiu 18 9 0x8421) ∧
    decodeWord 0b00000001001100101101100000100001#32 = .ok (.addu 27 9 18) ∧
    decodeWord 0b00000001001100101101100000100100#32 = .ok (.and 27 9 18) ∧
    decodeWord 0b00110001001100101000010000100001#32 = .ok (.andi 18 9 0x8421) ∧
    decodeWord 0b00111100000100101000010000100001#32 = .ok (.lui 18 0x8421) ∧
    decodeWord 0b00000001001100101101100000100111#32 = .ok (.nor 27 9 18) ∧
    decodeWord 0b00000001001100101101100000100101#32 = .ok (.or 27 9 18) := by
  decide

theorem test_decode_comparison_and_logic :
    decodeWord 0b00110101001100101000010000100001#32 = .ok (.ori 18 9 0x8421) ∧
    decodeWord 0b00000001001100101101100000101010#32 = .ok (.slt 27 9 18) ∧
    decodeWord 0b00101001001100101000010000100001#32 = .ok (.slti 18 9 0x8421) ∧
    decodeWord 0b00101101001100101000010000100001#32 = .ok (.sltiu 18 9 0x8421) ∧
    decodeWord 0b00000001001100101101100000101011#32 = .ok (.sltu 27 9 18) ∧
    decodeWord 0b00000001001100101101100000100010#32 = .ok (.sub 27 9 18) ∧
    decodeWord 0b00000001001100101101100000100011#32 = .ok (.subu 27 9 18) ∧
    decodeWord 0b00000001001100101101100000100110#32 = .ok (.xor 27 9 18) ∧
    decodeWord 0b00111001001100101000010000100001#32 = .ok (.xori 18 9 0x8421) := by
  decide

theorem test_decode_branches_and_jumps :
    decodeWord 0b00010001001100101000010000100001#32 = .ok (.beq 9 18 0x8421) ∧
    decodeWord 0b00000101001000011000010000100001#32 = .ok (.bgez 9 0x8421) ∧
    decodeWord 0b00000101001100011000010000100001#32 = .ok (.bgezal 9 0x8421) ∧
    decodeWord 0b00011101001000001000010000100001#32 = .ok (.bgtz 9 0x8421) ∧
    decodeWord 0b00011001001000001000010000100001#32 = .ok (.blez 9 0x8421) ∧
    decodeWord 0b00000101001100001000010000100001#32 = .ok (.bltzal 9 0x8421) ∧
    decodeWord 0b00000101001000001000010000100001#32 = .ok (.bltz 9 0x8421) ∧
    decodeWord 0b00010101001100101000010000100001#32 = .ok (.bne 9 18 0x8421) ∧
    decodeWord 0b00001010101010101010101010101011#32 = .ok (.j 44739243) ∧
    decodeWord 0b00001110101010101010101010101011#32 = .ok (.jal 44739243) ∧
    decodeWord 0b00000001001000001101100000001001#32 = .ok (.jalr 27 9) ∧
    decodeWord 0b00000001001000000000000000001000#32 = .ok (.jr 9) := by
  decide

theorem test_decode_multiply_divide :
    decodeWord 0b00000001001100100000000000011010#32 = .ok (.div 9 18) ∧
    decodeWord 0b00000001001100100000000000011011#32 = .ok (.divu 9 18) ∧
    decodeWord 0b00000000000000001101100000010000#32 = .ok (.mfhi 27) ∧
    decodeWord 0b00000000000000001101100000010010#32 = .ok (.mflo 27) ∧
    decodeWord 0b00000001001000000000000000010001#32 = .ok (.mthi 9) ∧
    decodeWord 0b00000001001000000000000000010011#32 = .ok (.mtlo 9) ∧
    decodeWord 0b00000001001100100000000000011000#32 = .ok (.mult 9 18) ∧
    decodeWord 0b00000001001100100000000000011001#32 = .ok (.multu 9 18) := by
  decide

theorem test_decode_loads_and_stores :
    decodeWord 0b10000001001100101000010000100001#32 = .ok (.lb 18 0x8421 9) ∧
    decodeWord 0b10010001001100101000010000100001#32 = .ok (.lbu 18 0x8421 9) ∧
    decodeWord 0b10000101001100101000010000100001#32 = .ok (.lh 18 0x8421 9) ∧
    decodeWord 0b10010101001100101000010000100001#32 = .ok (.lhu 18 0x8421 9) ∧
    decodeWord 0b10001101001100101000010000100001#32 = .ok (.lw 18 0x8421 9) ∧
    decodeWord 0b10001001001100101000010000100001#32 = .ok (.lwl 18 0x8421 9) ∧
    decodeWord 0b10011001001100101000010000100001#32 = .ok (.lwr 18 0x8421 9) ∧
    decodeWord 0b10100001001100101000010000100001#32 = .ok (.sb 18 0x8421 9) ∧
    decodeWord 0b10100101001100101000010000100001#32 = .ok (.sh 18 0x8421 9) ∧
    decodeWord 0b10101101001100101000010000100001#32 = .ok (.sw 18 0x8421 9) ∧
    decodeWord 0b10101001001100101000010000100001#32 = .ok (.swl 18 0x8421 9) ∧
    decodeWord 0b10111001001100101000010000100001#32 = .ok (.swr 18 0x8421 9) := by
  decide

theorem test_decode_shifts_and_syscall :
    decodeWord 0b00000000000100101101110101000000#32 = .ok (.sll 27 18 21) ∧
    decodeWord 0b00000001001100101101100000000100#32 = .ok (.sllv 27 18 9) ∧
    decodeWord 0b00000000000100101101110101000011#32 = .ok (.sra 27 18 21) ∧
    decodeWord 0b00000001001100101101100000000111#32 = .ok (.srav 27 18 9) ∧
    decodeWord 0b00000000000100101101110101000010#32 = .ok (.srl 27 18 21) ∧
    decodeWord 0b00000001001100101101100000000110#32 = .ok (.srlv 27 18 9) ∧
    decodeWord 0b00000000000000000000000000001100#32 = .ok .syscall := by
  decide

/-- Reserved words (vectors F3 to F25, Y3, Y4): an unlisted `funct`, `code` or opcode, then one word
for each must-be-zero field. -/
theorem test_decode_refuses_unlisted :
    ([0x0000000D#32, 0x00000001#32, 0x0000003F#32, 0x05020004#32, 0x05120004#32, 0x40000000#32,
      0x70000000#32, 0x9C000000#32, 0xB0000000#32, 0xBC000000#32, 0xC4000000#32,
      0xFFFFFFFF#32].all fun w => (decodeWord w).toOption.isNone) = true := by decide
theorem test_decode_refuses_nonzero_fields :
    ([0x01095060#32, 0x01094818#32, 0x0109005A#32, 0x01084900#32, 0x01200808#32, 0x0101F809#32,
      0x01004810#32, 0x01014011#32, 0x3D081234#32, 0x1D010004#32, 0x19010004#32, 0x0000004C#32,
      0x03FFFFCC#32].all fun w => (decodeWord w).toOption.isNone) = true := by decide

/-- Too few bytes are no instruction; four bytes are read in either order, and the rest is left. -/
theorem test_decodeBytes :
    decodeBytes false [0x20, 0x50, 0x09] = .error .truncated ∧
    decodeBytes false [0x20, 0x50, 0x09, 0x01, 0xAA] = .ok (.add 10 8 9, [0xAA]) ∧
    decodeBytes true [0x01, 0x09, 0x50, 0x20] = .ok (.add 10 8 9, []) := by decide

theorem test_decodeTableWord : decodeTableWord 32 0x01095020 = some (.add 10 8 9) ∧
    decodeTableWord 32 0x0000000D = none := by decide

/-! ### One step on a small state

`pc` = 0x00400000 unless given, HI = 0xAAAAAAAA, LO = 0xBBBBBBBB, and the eight bytes of the vectors
L1 to L48 at 0x10010000. -/

/-- The addresses of vectors V1 to V7: 0x20000000 to 0x2FFFFFFF do not exist. -/
def regions : List Region :=
  [{ base := 0, size := 0x20000000, fetch := true, load := true, store := true },
   { base := 0x30000000, size := 0xD0000000, fetch := true, load := true, store := true }]

/-- A small state, whose environment ends the run at the first trap. -/
def mk (be : Bool) (pc : Word) (regs : List (RegIdx × Word)) : State :=
  { State.reset with
    pc := pc
    hi := 0xAAAAAAAA#32
    lo := 0xBBBBBBBB#32
    params := { bigEndian := be, regions := regions }
    env := [.endRun]
    mem := [(0x10010000, 0x11), (0x10010001, 0x82), (0x10010002, 0x33), (0x10010003, 0xC4),
      (0x10010004, 0x55), (0x10010005, 0xE6), (0x10010006, 0x77), (0x10010007, 0x08)] }.setRegs regs

/-- One step on the word `w`, little-endian, from 0x00400000. -/
def run (w : Nat) (regs : List (RegIdx × Word)) : Result :=
  step ((mk false 0x00400000#32 regs).withFetchWord 32 w)

/-- The same in big-endian order. -/
def runBE (w : Nat) (regs : List (RegIdx × Word)) : Result :=
  step ((mk true 0x00400000#32 regs).withFetchWord 32 w)

/-- The state a step leaves, or the state after reset. -/
def after : Result → State
  | .next t => t
  | .fault _ => State.reset
  | .refused _ => State.reset

/-- A register and `pc` after a step. -/
def regPc (q : RegIdx) : Result → Option (Word × Word)
  | .next t => some (t.reg q, t.pc)
  | .fault _ => none
  | .refused _ => none

/-- HI and LO after a step. -/
def hiLo : Result → Option (Word × Word)
  | .next t => some (t.hi, t.lo)
  | .fault _ => none
  | .refused _ => none

/-- The eight bytes at 0x10010000 after a step, in address order. -/
def mem8 : Result → Option (List Byte)
  | .next t => some ((List.range 8).map fun k => t.byte (0x10010000#32 + BitVec.ofNat 32 k))
  | .fault _ => none
  | .refused _ => none

/-- The event a step ends in. -/
def event : Result → Option Fault
  | .next _ => none
  | .fault e => some e
  | .refused _ => none

/-! #### Arithmetic, logical, compare, load upper -/

/-- A5 -/
theorem test_add_overflow_traps_rd0 :
    event (run 0x01090020 [(8, 0x7FFFFFFF#32), (9, 0x00000001#32)]) =
      some (.integerOverflow 0x00400000#32) := by decide
/-- A7 -/
theorem test_add_source_is_destination :
    regPc 8 (run 0x01084020 [(8, 0x00000003#32)]) = some (0x00000006#32, 0x00400004#32) := by decide
/-- A11 -/
theorem test_addi_min :
    regPc 9 (run 0x21098000 [(8, 0x80008000#32)]) = some (0x80000000#32, 0x00400004#32) := by decide
/-- A10 -/
theorem test_addi_traps :
    event (run 0x21098000 [(8, 0x80000000#32)]) = some (.integerOverflow 0x00400000#32) := by decide
/-- A14 -/
theorem test_addiu_sign_extends :
    regPc 9 (run 0x25098000 [(8, 0x80000000#32)]) = some (0x7FFF8000#32, 0x00400004#32) := by decide
/-- A16 -/
theorem test_addu_wraps :
    regPc 10 (run 0x01095021 [(8, 0xFFFFFFFF#32), (9, 0xFFFFFFFF#32)]) =
      some (0xFFFFFFFE#32, 0x00400004#32) := by decide
/-- A18 -/
theorem test_and :
    regPc 10 (run 0x01095024 [(8, 0xFF00FF00#32), (9, 0x0FF00FF0#32)]) =
      some (0x0F000F00#32, 0x00400004#32) := by decide
/-- A20 -/
theorem test_andi_zero_extends :
    regPc 9 (run 0x31098000 [(8, 0xFFFFFFFF#32)]) = some (0x00008000#32, 0x00400004#32) := by decide
/-- A21 -/
theorem test_lui :
    regPc 8 (run 0x3C081234 [(8, 0xFFFFFFFF#32)]) = some (0x12340000#32, 0x00400004#32) := by decide
/-- A23 -/
theorem test_nor :
    regPc 10 (run 0x01095027 [(8, 0xFF00FF00#32), (9, 0x0FF00FF0#32)]) =
      some (0x000F000F#32, 0x00400004#32) := by decide
/-- A25 -/
theorem test_or :
    regPc 10 (run 0x01095025 [(8, 0xFF00FF00#32), (9, 0x0FF00FF0#32)]) =
      some (0xFFF0FFF0#32, 0x00400004#32) := by decide
/-- A26 -/
theorem test_ori :
    regPc 9 (run 0x35098001 [(8, 0x12340000#32)]) = some (0x12348001#32, 0x00400004#32) := by decide
/-- A31 -/
theorem test_slt_signed :
    regPc 10 (run 0x0109502A [(8, 0x80000000#32), (9, 0x7FFFFFFF#32)]) =
      some (0x00000001#32, 0x00400004#32) := by decide
/-- A38 -/
theorem test_slti_signed :
    regPc 9 (run 0x2909FFFF [(9, 0x00000009#32)]) = some (0x00000000#32, 0x00400004#32) := by decide
/-- A43 -/
theorem test_sltiu_sign_extends_then_unsigned :
    regPc 9 (run 0x2D098000 [(8, 0xFFFF8000#32), (9, 0x00000009#32)]) =
      some (0x00000000#32, 0x00400004#32) := by decide
/-- A35 -/
theorem test_sltu_unsigned :
    regPc 10 (run 0x0109502B [(8, 0xFFFFFFFF#32), (9, 0x00000001#32), (10, 0x00000009#32)]) =
      some (0x00000000#32, 0x00400004#32) := by decide
/-- A45 -/
theorem test_sub :
    regPc 10 (run 0x01095022 [(8, 0x00000005#32), (9, 0x00000007#32)]) =
      some (0xFFFFFFFE#32, 0x00400004#32) := by decide
/-- R114: 0 - 0x80000000 traps -/
theorem test_sub_min_traps :
    event (run 0x01095022 [(9, 0x80000000#32)]) = some (.integerOverflow 0x00400000#32) := by decide
/-- R115, its example -/
theorem test_subu :
    regPc 10 (run 0x01095023 [(9, 0x00000001#32)]) =
      some (0xFFFFFFFF#32, 0x00400004#32) := by decide
/-- A27 -/
theorem test_xor :
    regPc 10 (run 0x01095026 [(8, 0xFF00FF00#32), (9, 0x0FF00FF0#32)]) =
      some (0xF0F0F0F0#32, 0x00400004#32) := by decide
/-- A29 -/
theorem test_xori :
    regPc 9 (run 0x3909FFFF [(8, 0x12345678#32)]) = some (0x1234A987#32, 0x00400004#32) := by decide

/-! #### Shifts -/

/-- S3 -/
theorem test_sll :
    regPc 9 (run 0x00084FC0 [(8, 0xFFFFFFFF#32)]) = some (0x80000000#32, 0x00400004#32) := by decide
/-- S13 -/
theorem test_sllv_amount_modulo_32 :
    regPc 10 (run 0x01285004 [(8, 0x00000001#32), (9, 0x00000021#32)]) =
      some (0x00000002#32, 0x00400004#32) := by decide
/-- S9 -/
theorem test_sra :
    regPc 9 (run 0x00084FC3 [(8, 0x80000000#32)]) = some (0xFFFFFFFF#32, 0x00400004#32) := by decide
/-- S18 -/
theorem test_srav :
    regPc 10 (run 0x01285007 [(8, 0x80000000#32), (9, 0x00000024#32)]) =
      some (0xF8000000#32, 0x00400004#32) := by decide
/-- S6 -/
theorem test_srl :
    regPc 9 (run 0x00084FC2 [(8, 0x80000000#32)]) = some (0x00000001#32, 0x00400004#32) := by decide
/-- S15 -/
theorem test_srlv :
    regPc 10 (run 0x01285006 [(8, 0x80000000#32), (9, 0x0000003F#32)]) =
      some (0x00000001#32, 0x00400004#32) := by decide
/-- F1 -/
theorem test_zero_word_only_advances :
    regPc 0 (run 0x00000000 []) = some (0x00000000#32, 0x00400004#32) := by decide

/-! #### Multiply, divide, HIGH and LOW -/

/-- M4 -/
theorem test_mult_signed :
    hiLo (run 0x01090018 [(8, 0x80000000#32), (9, 0x7FFFFFFF#32)]) =
      some (0xC0000000#32, 0x80000000#32) := by decide
/-- M8 -/
theorem test_multu_unsigned :
    hiLo (run 0x01090019 [(8, 0xFFFFFFFE#32), (9, 0x00000003#32)]) =
      some (0x00000002#32, 0xFFFFFFFA#32) := by decide
/-- M12 -/
theorem test_div_negative_dividend :
    hiLo (run 0x0109001A [(8, 0xFFFFFFF9#32), (9, 0x00000002#32)]) =
      some (0xFFFFFFFF#32, 0xFFFFFFFD#32) := by decide
/-- M16 -/
theorem test_div_overflow_pair :
    hiLo (run 0x0109001A [(8, 0x80000000#32), (9, 0xFFFFFFFF#32)]) =
      some (0x00000000#32, 0x80000000#32) := by decide
/-- M20 -/
theorem test_divu :
    hiLo (run 0x0109001B [(8, 0xFFFFFFF9#32), (9, 0x00000002#32)]) =
      some (0x00000001#32, 0x7FFFFFFC#32) := by decide
/-- M18, M23: a zero divisor leaves two free values and counts the draws. -/
theorem test_divide_by_zero_completes :
    (after (run 0x0109001A [(8, 5)])).draws = 2 ∧ (after (run 0x0109001B [(8, 5)])).draws = 2 ∧
    (after (run 0x0109001A [(8, 5)])).pc = 0x00400004#32 := by decide
/-- M24 -/
theorem test_mfhi :
    regPc 8 (run 0x00004010 []) = some (0xAAAAAAAA#32, 0x00400004#32) := by decide
/-- M25 -/
theorem test_mflo :
    regPc 8 (run 0x00004012 []) = some (0xBBBBBBBB#32, 0x00400004#32) := by decide
/-- M27 -/
theorem test_mthi :
    hiLo (run 0x01000011 [(8, 0x00001234#32)]) = some (0x00001234#32, 0xBBBBBBBB#32) := by decide
/-- M28 -/
theorem test_mtlo :
    hiLo (run 0x01000013 [(8, 0x00005678#32)]) = some (0xAAAAAAAA#32, 0x00005678#32) := by decide

/-! #### Loads and stores, in both byte orders -/

/-- L2 -/
theorem test_lb :
    regPc 9 (run 0x81090001 [(8, 0x10010000#32), (9, 0xAABBCCDD#32)]) =
      some (0xFFFFFF82#32, 0x00400004#32) := by decide
/-- L5 -/
theorem test_lbu :
    regPc 9 (runBE 0x91090001 [(8, 0x10010000#32), (9, 0xAABBCCDD#32)]) =
      some (0x00000082#32, 0x00400004#32) := by decide
/-- L7 -/
theorem test_lh_little :
    regPc 9 (run 0x85090000 [(8, 0x10010000#32), (9, 0xAABBCCDD#32)]) =
      some (0xFFFF8211#32, 0x00400004#32) := by decide
/-- L7 -/
theorem test_lh_big :
    regPc 9 (runBE 0x85090000 [(8, 0x10010000#32), (9, 0xAABBCCDD#32)]) =
      some (0x00001182#32, 0x00400004#32) := by decide
/-- L11 -/
theorem test_lhu_big :
    regPc 9 (runBE 0x95090002 [(8, 0x10010000#32), (9, 0xAABBCCDD#32)]) =
      some (0x000033C4#32, 0x00400004#32) := by decide
/-- L12 -/
theorem test_lhu_odd_traps :
    event (run 0x95090001 [(8, 0x10010000#32), (9, 0xAABBCCDD#32)]) =
      some (.addressError .load 0x10010001#32 0x00400000#32) := by decide
/-- L14 -/
theorem test_lw_big :
    regPc 9 (runBE 0x8D090004 [(8, 0x10010000#32), (9, 0xAABBCCDD#32)]) =
      some (0x55E67708#32, 0x00400004#32) := by decide
/-- V2: alignment is checked before existence -/
theorem test_lw_misaligned_before_missing :
    event (run 0x8D090002 [(8, 0x20000000#32)]) =
      some (.addressError .load 0x20000002#32 0x00400000#32) := by decide
/-- L23 -/
theorem test_lwl_little :
    regPc 9 (run 0x89090002 [(8, 0x10010000#32), (9, 0xAABBCCDD#32)]) =
      some (0x338211DD#32, 0x00400004#32) := by decide
/-- L22 -/
theorem test_lwl_big :
    regPc 9 (runBE 0x89090001 [(8, 0x10010000#32), (9, 0xAABBCCDD#32)]) =
      some (0x8233C4DD#32, 0x00400004#32) := by decide
/-- L26 -/
theorem test_lwr_little :
    regPc 9 (run 0x99090001 [(8, 0x10010000#32), (9, 0xAABBCCDD#32)]) =
      some (0xAAC43382#32, 0x00400004#32) := by decide
/-- L27 -/
theorem test_lwr_big :
    regPc 9 (runBE 0x99090002 [(8, 0x10010000#32), (9, 0xAABBCCDD#32)]) =
      some (0xAA118233#32, 0x00400004#32) := by decide
/-- L32 -/
theorem test_sb :
    mem8 (run 0xA1090003 [(8, 0x10010000#32), (9, 0xAABBCCDD#32)]) =
      some [0x11, 0x82, 0x33, 0xDD, 0x55, 0xE6, 0x77, 0x08] ∧
    mem8 (runBE 0xA1090003 [(8, 0x10010000#32), (9, 0xAABBCCDD#32)]) =
      some [0x11, 0x82, 0x33, 0xDD, 0x55, 0xE6, 0x77, 0x08] := by decide
/-- L34 -/
theorem test_sh :
    mem8 (run 0xA5090002 [(8, 0x10010000#32), (9, 0xAABBCCDD#32)]) =
      some [0x11, 0x82, 0xDD, 0xCC, 0x55, 0xE6, 0x77, 0x08] ∧
    mem8 (runBE 0xA5090002 [(8, 0x10010000#32), (9, 0xAABBCCDD#32)]) =
      some [0x11, 0x82, 0xCC, 0xDD, 0x55, 0xE6, 0x77, 0x08] := by decide
/-- L35 -/
theorem test_sh_odd_traps :
    event (run 0xA5090003 [(8, 0x10010000#32), (9, 0xAABBCCDD#32)]) =
      some (.addressError .store 0x10010003#32 0x00400000#32) := by decide
/-- L37 -/
theorem test_sw :
    mem8 (run 0xAD090004 [(8, 0x10010000#32), (9, 0xAABBCCDD#32)]) =
      some [0x11, 0x82, 0x33, 0xC4, 0xDD, 0xCC, 0xBB, 0xAA] ∧
    mem8 (runBE 0xAD090004 [(8, 0x10010000#32), (9, 0xAABBCCDD#32)]) =
      some [0x11, 0x82, 0x33, 0xC4, 0xAA, 0xBB, 0xCC, 0xDD] := by decide
/-- V3 -/
theorem test_sw_missing :
    event (run 0xAD090000 [(8, 0x20000000#32)]) =
      some (.busFault .store 0x20000000#32 0x00400000#32) := by decide
/-- L41 -/
theorem test_swl :
    mem8 (run 0xA9090002 [(8, 0x10010000#32), (9, 0xAABBCCDD#32)]) =
      some [0xCC, 0xBB, 0xAA, 0xC4, 0x55, 0xE6, 0x77, 0x08] ∧
    mem8 (runBE 0xA9090002 [(8, 0x10010000#32), (9, 0xAABBCCDD#32)]) =
      some [0x11, 0x82, 0xAA, 0xBB, 0x55, 0xE6, 0x77, 0x08] := by decide
/-- L45 -/
theorem test_swr :
    mem8 (run 0xB9090002 [(8, 0x10010000#32), (9, 0xAABBCCDD#32)]) =
      some [0x11, 0x82, 0xDD, 0xCC, 0x55, 0xE6, 0x77, 0x08] ∧
    mem8 (runBE 0xB9090002 [(8, 0x10010000#32), (9, 0xAABBCCDD#32)]) =
      some [0xBB, 0xCC, 0xDD, 0xC4, 0x55, 0xE6, 0x77, 0x08] := by decide
/-- V6: the word at 0x20000000 is not touched -/
theorem test_lwl_next_to_a_hole :
    regPc 9 (run 0x8909FFFF [(8, 0x20000000#32), (9, 0x00000005#32)]) =
      some (0x00000000#32, 0x00400004#32) := by decide

/-! #### Branches and jumps -/

/-- B3 -/
theorem test_beq_backwards :
    regPc 0 (run 0x1000FFFF []) = some (0x00000000#32, 0x00400000#32) := by decide
/-- B9 -/
theorem test_bne :
    regPc 0 (run 0x1509FFFD [(8, 0x00000005#32), (9, 0x00000006#32)]) =
      some (0x00000000#32, 0x003FFFF8#32) := by decide
/-- B11 -/
theorem test_bgez_zero :
    regPc 0 (run 0x05010004 []) = some (0x00000000#32, 0x00400014#32) := by decide
/-- B14 -/
theorem test_bgtz_zero_falls_through :
    regPc 0 (run 0x1D000004 []) = some (0x00000000#32, 0x00400004#32) := by decide
/-- B19 -/
theorem test_blez_negative :
    regPc 0 (run 0x19000004 [(8, 0xFFFFFFFF#32)]) = some (0x00000000#32, 0x00400014#32) := by decide
/-- B20 -/
theorem test_bltz :
    regPc 0 (run 0x05000004 [(8, 0xFFFFFFFF#32)]) = some (0x00000000#32, 0x00400014#32) := by decide
/-- B26 -/
theorem test_bgezal_tests_old_ra :
    regPc 31 (run 0x07F10004 [(31, 0x00000001#32)]) =
      some (0x00400004#32, 0x00400014#32) := by decide
/-- B23 -/
theorem test_bgezal_not_taken_no_link :
    regPc 31 (run 0x05110004 [(8, 0xFFFFFFFF#32), (31, 0x0000AAAA#32)]) =
      some (0x0000AAAA#32, 0x00400004#32) := by decide
/-- B24 -/
theorem test_bltzal :
    regPc 31 (run 0x0510FFFE [(8, 0xFFFFFFFF#32), (31, 0x0000AAAA#32)]) =
      some (0x00400004#32, 0x003FFFFC#32) := by decide
/-- B29 -/
theorem test_j :
    regPc 0 (run 0x0BFFFFFF []) = some (0x00000000#32, 0x0FFFFFFC#32) := by decide
/-- B31 -/
theorem test_jal :
    regPc 31 (run 0x0C100040 []) = some (0x00400004#32, 0x00400100#32) := by decide
/-- B34 -/
theorem test_jalr :
    regPc 16 (run 0x01008009 [(8, 0x00400102#32)]) =
      some (0x00400004#32, 0x00400102#32) := by decide
/-- B36 -/
theorem test_jalr_same_register :
    event (run 0x01004009 [(8, 0x00400100#32)]) = some (.unpredictable 0x00400000#32) := by decide
/-- B39 -/
theorem test_jr :
    regPc 0 (run 0x01000008 [(8, 0x00400021#32)]) = some (0x00000000#32, 0x00400021#32) := by decide
/-- B30 and B32: the region is that of the next instruction. -/
theorem test_jump_region_of_next_instruction :
    regPc 0 (exec (.j 0) (mk false 0x0FFFFFFC#32 [])) = some (0#32, 0x10000000#32) ∧
    regPc 31 (exec (.jal 1) (mk false 0x8FFFFFFC#32 [])) =
      some (0x90000000#32, 0x90000004#32) := by decide

/-! #### The step, traps and the environment -/

/-- F26 and V5: a misaligned `pc` traps before anything else is asked. -/
theorem test_misaligned_fetch :
    event (step (mk false 0x00400002#32 [])) =
      some (.addressError .fetch 0x00400002#32 0x00400002#32) ∧
    event (step (mk false 0x20000002#32 [])) =
      some (.addressError .fetch 0x20000002#32 0x20000002#32) := by decide
/-- V4: a fetch from a missing address. -/
theorem test_missing_fetch : event (step (mk true 0x20000000#32 [])) =
    some (.busFault .fetch 0x20000000#32 0x20000000#32) := by decide
/-- F6: a reserved word. -/
theorem test_reserved_word : event (run 0x01095060 []) =
    some (.reservedInstruction 0x01095060#32 0x00400000#32) := by decide
/-- Y1: the trap of `syscall` when the environment ends the run. -/
theorem test_syscall_ends_run : event (run 0x0000000C []) = some (.syscall 0x00400000#32) := by
  decide

/-- An answer that writes one register and one byte and names a `pc`. -/
def answer : Resume :=
  { pc := 0x00400100#32, regs := [(2, 7#32)], hi := some 1#32, lo := none,
    bytes := [(0x10010000#32, 0xFE)] }

/-- A small state whose environment gives these answers. -/
def answered (env : List EnvAnswer) : State := { mk false 0x00400000#32 [] with env := env }

/-- R221: a resumed `syscall` goes on at `pc + 4` with the changes of the environment. -/
theorem test_syscall_resumed :
    let r := exec .syscall (answered [.resume answer])
    event r = none ∧ after r =
      { ((mk false 0x00400004#32 [(2, 7#32)]).setHi 1#32).setByte 0x10010000#32 0xFE with
        env := [], traps := 1 } := by decide
/-- R232: a resumed overflow goes on where the environment says, nothing written by `add`. -/
theorem test_overflow_resumed :
    regPc 10 (exec (.add 10 8 9) ((answered [.resume answer]).setRegs
      [(8, 0x7FFFFFFF#32), (9, 1#32)])) = some (0#32, 0x00400100#32) := by decide

/-- The memory after reset is canonical, and a write of the value an unlisted address reads as takes
the entry out again. -/
theorem test_memory_canonical : Memory.wf State.reset.mem ∧ Memory.wf (mk false 0 []).mem ∧
    ((State.reset.setByte 5 1).setByte 5 0).mem = [] := by decide

/-- A run that stores at 0x00400004 and then fetches there is reported. -/
theorem test_fetchesStored : fetchesStored 2 [] ((mk false 0x00400000#32
    [(8, 0x00400004#32)]).withFetchWord 32 0xAD000000) = true := by decide
/-- The same where the run passes through a misaligned `pc`, with bytes there that are no instruction, and
the environment resumes it at the bytes stored. -/
theorem test_fetchesStored_through_trap :
    let s : State := { (mk false 0x00400011#32 []).memWrite 0x00400011#32 4 0xFFFFFFFF#32 with
      env := [.resume { answer with pc := 0x00400004#32 }] }
    (decodeWord (s.readWord s.pc)).toOption = none ∧
    fetchesStored 1 [0x00400004#32] s = false ∧ fetchesStored 2 [0x00400004#32] s = true := by
  decide

/-! ### Every statement with hypotheses is met by a state

One theorem per statement, its conjuncts the hypotheses of each of the statement's clauses, at boundary
values. -/

/-- StepRunsDecodedInstruction, at the last word of the address space, big-endian. -/
theorem test_meets_StepRunsDecodedInstruction :
    let s := (mk true 0xFFFFFFFC#32 []).withFetchWord 32 0x01095020
    s.pc.toNat % 4 = 0 ∧ s.memValid s.pc 4 .fetch = true ∧
    decodeWord (s.byte s.pc ++ s.byte (s.pc + 1) ++ s.byte (s.pc + 2) ++ s.byte (s.pc + 3)) =
      .ok (.add 10 8 9) := by decide

/-- StepEventsComeInOrder: misaligned, missing, reserved and decoded. -/
theorem test_meets_StepEventsComeInOrder :
    (mk false 0x20000001#32 []).pc.toNat % 4 ≠ 0 ∧
    (mk false 0x2FFFFFFC#32 []).pc.toNat % 4 = 0 ∧
    (mk false 0x2FFFFFFC#32 []).memValid 0x2FFFFFFC#32 4 .fetch = false ∧
    (mk false 0x1FFFFFFC#32 []).memValid 0x1FFFFFFC#32 4 .fetch = true ∧
    decodeWord (((mk false 0x1FFFFFFC#32 []).withFetchWord 32 1).readWord 0x1FFFFFFC#32) =
      .error (.reservedFunct 1) ∧
    decodeWord ((mk false 0x1FFFFFFC#32 []).readWord 0x1FFFFFFC#32) = .ok (.sll 0 0 0) := by decide

/-- DecodeInvertsEncode and EncodeInvertsDecode. -/
theorem test_meets_DecodeInvertsEncode : (Instr.sra 31 31 31).wellFormed = true ∧
    decodeWord 0x00084FC0#32 = .ok (.sll 9 8 31) := by decide

/-- StepKeepsMemoryCanonical and StepKeepsParameters. -/
theorem test_meets_StepKeepsMemoryCanonical :
    let s := (mk false 0x00400000#32 [(8, 0x10010000#32)]).withFetchWord 32 0xAD090004
    Memory.wf s.mem ∧ step s = .next (after (step s)) := ⟨by decide, by rfl⟩

/-- The frame statements: a step the environment had no part in, at `add`, with a register, HI and LO
that are not its destination. -/
theorem test_meets_OnlyDestinationRegisterChanges :
    let s := mk false 0x00400000#32 []
    exec (.add 10 8 9) s = .next (after (exec (.add 10 8 9) s)) ∧
    (after (exec (.add 10 8 9) s)).traps = s.traps ∧ destReg (.add 10 8 9) ≠ some 9 ∧
    storeSpan s (.add 10 8 9) = none ∧ s.pc.toNat % 4 = 0 ∧
    mnemonic (.add 10 8 9) ∉ ["mult", "multu", "div", "divu", "mthi"] ∧
    mnemonic (.add 10 8 9) ∉ ["mult", "multu", "div", "divu", "mtlo"] ∧
    mnemonic (.add 10 8 9) ∉ ["beq", "bgez", "bgezal", "bgtz", "blez", "bltzal", "bltz", "bne", "j",
      "jal", "jalr", "jr"] := ⟨by rfl, by decide⟩

/-- OnlyStoresChangeMemory: a store at the top of memory, and the first address outside it. -/
theorem test_meets_OnlyStoresChangeMemory :
    let s := mk false 0x00400000#32 [(8, 0xFFFFFFFC#32)]
    exec (.sw 9 0 8) s = .next (after (exec (.sw 9 0 8) s)) ∧
    (after (exec (.sw 9 0 8) s)).traps = s.traps ∧
    storeSpan s (.sw 9 0 8) = some (0xFFFFFFFC#32, 4) ∧
    ¬ (0#32 - 0xFFFFFFFC#32).toNat < 4 := ⟨by rfl, by decide⟩

/-- OnlyRegisterJumpsMisalign, at a branch taken. -/
theorem test_meets_OnlyRegisterJumpsMisalign :
    let s := mk false 0x00400000#32 []
    exec (.beq 0 0 0xFFFF) s = .next (after (exec (.beq 0 0 0xFFFF) s)) ∧
    (after (exec (.beq 0 0 0xFFFF) s)).traps = s.traps ∧ s.pc.toNat % 4 = 0 ∧
    mnemonic (.beq 0 0 0xFFFF) ∉ ["jr", "jalr"] := ⟨by rfl, by decide⟩

/-- EventsOfEachInstruction: each event an instruction can end in occurs, and an instruction of the
last clause exists. -/
theorem test_meets_EventsOfEachInstruction :
    event (exec (.sub 10 8 9) (mk false 0 [(8, 0x80000000#32), (9, 1#32)])) =
      some (.integerOverflow 0) ∧
    event (exec (.lh 9 1 0) (mk false 0 [])) = some (.addressError .load 1 0) ∧
    event (exec (.sw 9 2 0) (mk false 0 [])) = some (.addressError .store 2 0) ∧
    event (exec (.lwr 9 0 8) (mk true 0 [(8, 0x2FFFFFFF#32)])) =
      some (.busFault .load 0x2FFFFFFC#32 0) ∧
    event (exec (.swl 9 0 8) (mk false 0 [(8, 0x20000000#32)])) =
      some (.busFault .store 0x20000000#32 0) ∧
    event (exec .syscall (mk false 0 [])) = some (.syscall 0) ∧
    event (exec (.jalr 31 31) (mk false 0 [])) = some (.unpredictable 0) ∧
    mnemonic (.mult 8 9) ∉ ["add", "addi", "sub", "lh", "lhu", "lw", "sh", "sw", "lb", "lbu", "lwl",
      "lwr", "sb", "swl", "swr", "syscall", "jalr"] := by decide

/-- RegisterZeroIsHardwired, LuiThenOriLoadsAnyConstant. -/
theorem test_meets_register_not_zero : (31 : RegIdx) ≠ 0 ∧ (1 : RegIdx) ≠ 0 := by decide

/-- CheckedArithmeticWritesOrTraps: the last sums that fit and the first that do not. -/
theorem test_meets_CheckedArithmeticWritesOrTraps :
    let p := mk false 0 [(8, 0x7FFFFFFF#32), (9, 1#32)]
    let m := mk false 0 [(8, 0x80000000#32), (9, 1#32)]
    (p.reg 8).toInt + (p.reg 0).toInt = 2 ^ 31 - 1 ∧ (p.reg 8).toInt + (p.reg 9).toInt = 2 ^ 31 ∧
    (p.reg 8).toInt + (0 : Imm16).toInt = 2 ^ 31 - 1 ∧
    (m.reg 8).toInt + (0xFFFF : Imm16).toInt = -2 ^ 31 - 1 ∧
    (m.reg 8).toInt - (m.reg 0).toInt = -2 ^ 31 ∧
    (m.reg 8).toInt - (m.reg 9).toInt = -2 ^ 31 - 1 := by decide

/-- CheckedAndWrappingAgree. -/
theorem test_meets_CheckedAndWrappingAgree :
    let s := mk false 0 [(8, 0x7FFFFFFF#32)]
    (exec (.add 10 8 0) s = .next (after (exec (.add 10 8 0) s)) ∧
      (after (exec (.add 10 8 0) s)).traps = s.traps) ∧
    (exec (.addi 0 8 0) s = .next (after (exec (.addi 0 8 0) s)) ∧
      (after (exec (.addi 0 8 0) s)).traps = s.traps) ∧
    (exec (.sub 10 8 0) s = .next (after (exec (.sub 10 8 0) s)) ∧
      (after (exec (.sub 10 8 0) s)).traps = s.traps) :=
  ⟨⟨by rfl, by decide⟩, ⟨by rfl, by decide⟩, ⟨by rfl, by decide⟩⟩

/-- SignedDivisionTruncates, DivisionOverflowLeavesDecidedValues, UnsignedDivisionFloors and
DivisionByZeroDrawsHiLo: next to the overflow pair, the pair itself, the divisors 1 and 0. -/
theorem test_meets_division :
    let s := mk false 0 [(8, 0x80000000#32), (9, 0xFFFFFFFF#32), (10, 1#32), (11, 0x80000001#32)]
    ((s.reg 9).toInt ≠ 0 ∧ ¬ ((s.reg 11).toInt = -2 ^ 31 ∧ (s.reg 9).toInt = -1)) ∧
    (s.reg 8 = 0x80000000#32 ∧ s.reg 9 = 0xFFFFFFFF#32) ∧ (s.reg 10).toNat ≠ 0 ∧ s.reg 0 = 0 := by
  decide

/-- ByteLoadsExtend, HalfwordLoadsExtendOrTrap, WordLoadReadsOrTraps: the last accesses before the hole,
the first in it, and a misaligned one. -/
theorem test_meets_loads :
    let s := mk true 0 [(8, 0x20000000#32)]
    (effAddr s 8 0xFFFF = 0x1FFFFFFF#32 ∧ s.memValid 0x1FFFFFFF#32 1 .load = true ∧
      s.memValid (effAddr s 8 0) 1 .load = false) ∧
    (effAddr s 8 0xFFFE = 0x1FFFFFFE#32 ∧ s.memValid 0x1FFFFFFE#32 2 .load = true ∧
      (effAddr s 8 0xFFFF).toNat % 2 ≠ 0 ∧ (effAddr s 8 0).toNat % 2 = 0 ∧
      s.memValid (effAddr s 8 0) 2 .load = false) ∧
    (effAddr s 8 0xFFFC = 0x1FFFFFFC#32 ∧ s.memValid 0x1FFFFFFC#32 4 .load = true ∧
      (effAddr s 8 0xFFFE).toNat % 4 ≠ 0 ∧ (effAddr s 8 0).toNat % 4 = 0 ∧
      s.memValid (effAddr s 8 0) 4 .load = false) := by decide

/-- ByteStoreWrites, HalfwordStoreWritesOrTraps, WordStoreWritesOrTraps: the same for stores. -/
theorem test_meets_stores :
    let s := mk false 0 [(8, 0x30000000#32)]
    (s.memValid (effAddr s 8 0) 1 .store = true ∧
      s.memValid (effAddr s 8 0xFFFF) 1 .store = false) ∧
    ((effAddr s 8 0).toNat % 2 = 0 ∧ s.memValid (effAddr s 8 0) 2 .store = true ∧
      (effAddr s 8 1).toNat % 2 ≠ 0 ∧ (effAddr s 8 0xFFFE).toNat % 2 = 0 ∧
      s.memValid (effAddr s 8 0xFFFE) 2 .store = false) ∧
    ((effAddr s 8 0).toNat % 4 = 0 ∧ s.memValid (effAddr s 8 0) 4 .store = true ∧
      (effAddr s 8 3).toNat % 4 ≠ 0 ∧ (effAddr s 8 0xFFFC).toNat % 4 = 0 ∧
      s.memValid (effAddr s 8 0xFFFC) 4 .store = false) := by decide

/-- A state with the holes of `regions`, `x[8]` = `a` and nothing else. -/
def bare (be : Bool) (a : Word) : State :=
  { State.reset with gpr := State.reset.gpr.set 7 a, params := { bigEndian := be, regions := regions } }

/-- The hypotheses of the two pairs of partial-word statements at the address in `x[8]`: the position is
`k`, and the bytes of the left and of the right form exist, or do not. -/
def partialAt (be : Bool) (a : Word) (k : Nat) (exist : Bool) (kind : AccessKind) : Bool :=
  let s := bare be a
  let ea := effAddr s 8 0
  sig be ea == k && s.memValid (if be then ea else wordBase ea) (k + 1) kind == exist &&
    s.memValid (if be then wordBase ea else ea) (4 - k) kind == exist

/-- LoadWordLeftMerges, LoadWordRightMerges, StoreWordLeftWrites and StoreWordRightWrites: all four
positions in both byte orders, and the hole. -/
theorem test_meets_partial_words :
    (partialAt false 0x10010000#32 0 true .load && partialAt false 0x10010001#32 1 true .load &&
      partialAt false 0x10010002#32 2 true .load && partialAt false 0x10010003#32 3 true .load &&
      partialAt true 0xFFFFFFFC#32 3 true .load && partialAt true 0xFFFFFFFD#32 2 true .load &&
      partialAt true 0xFFFFFFFE#32 1 true .store && partialAt true 0xFFFFFFFF#32 0 true .store &&
      partialAt false 0x1FFFFFFF#32 3 true .store && partialAt true 0x20000000#32 3 false .load &&
      partialAt false 0x2FFFFFFF#32 3 false .store) = true := by decide

/-- UnalignedLoadPairReadsFourBytes and UnalignedStorePairWritesFourBytes: four bytes that cross two
words, and four that wrap past the top of memory, in both byte orders. -/
theorem test_meets_unaligned_pairs : (8 : RegIdx) ≠ 9 ∧ (0 : RegIdx) = 0 ∧
    (effAddr (bare false 0x10010001#32) 8 0 = 0x10010001#32 ∧
      effAddr (bare false 0x10010001#32) 8 3 = 0x10010001#32 + 3) ∧
    (effAddr (bare true 0xFFFFFFFD#32) 8 0 = 0xFFFFFFFD#32 ∧
      effAddr (bare true 0xFFFFFFFD#32) 8 3 = 0xFFFFFFFD#32 + 3) ∧
    (∀ i < 4, (bare false 0x10010001#32).memValid (0x10010001#32 + BitVec.ofNat 32 i) 1 .load
      = true) ∧
    (∀ i < 4, (bare true 0xFFFFFFFD#32).memValid (0xFFFFFFFD#32 + BitVec.ofNat 32 i) 1 .store
      = true) := by decide

/-- NarrowLoadsSeeAWordStore: each byte and each halfword of the word stored. -/
theorem test_meets_NarrowLoadsSeeAWordStore :
    let s := mk false 0 [(8, 0xFFFFFFFC#32), (9, 0x11223344#32)]
    let t := after (exec (.sw 9 0 8) s)
    (effAddr s 8 0).toNat % 4 = 0 ∧ exec (.sw 9 0 8) s = .next t ∧ (10 : RegIdx) ≠ 0 ∧
    (∀ k < 4, effAddr t 8 (BitVec.ofNat 16 k) = effAddr s 8 0 + BitVec.ofNat 32 k ∧
      t.memValid (effAddr s 8 0 + BitVec.ofNat 32 k) 1 .load = true) ∧
    (∀ k ∈ [0, 2], t.memValid (effAddr s 8 0 + BitVec.ofNat 32 k) 2 .load = true) :=
  ⟨by decide, by rfl, by decide⟩

/-- StoredWordIsFetched. -/
theorem test_meets_StoredWordIsFetched :
    let s := mk true 0 [(8, 0x00400100#32), (9, 0x01095020#32)]
    let t := after (exec (.sw 9 0 8) s)
    (effAddr s 8 0).toNat % 4 = 0 ∧ exec (.sw 9 0 8) s = .next t ∧
    decodeWord (s.reg 9) = .ok (.add 10 8 9) ∧ t.memValid 0x00400100#32 4 .fetch = true :=
  ⟨by decide, by rfl, by decide⟩

/-- LinkingBranchesLinkOnlyWhenTaken: 0 and -1. -/
theorem test_meets_LinkingBranchesLinkOnlyWhenTaken :
    let s := mk false 0 [(8, 0xFFFFFFFF#32)]
    0 ≤ (s.reg 0).toInt ∧ (s.reg 8).toInt < 0 := by decide

/-- RegisterJumpsGo: different registers with a misaligned target, both 0, and the same register. -/
theorem test_meets_RegisterJumpsGo :
    let s := mk false 0 [(8, 0x20000001#32)]
    (s.reg 8).toNat % 4 ≠ 0 ∧ ((8 : RegIdx) ≠ 31 ∨ (31 : RegIdx) = 0) ∧
    ((0 : RegIdx) ≠ 0 ∨ (0 : RegIdx) = 0) ∧ (1 : RegIdx) ≠ 0 := by decide

/-- UnansweredTrapsStop, AnsweredTrapsResume and SyscallHandsOverAndResumes: the end of the run, and a
state to resume from, with a register and a byte it writes and one of each it does not. -/
theorem test_meets_traps : State.reset.env = [] ∧
    (answered [.endRun]).env = .endRun :: [] ∧
    envAnswer (.syscall 0) (answered [.endRun]) = .endRun ∧
    envAnswer (.syscall 0) (answered [.resume answer, .endRun]) = .resume answer ∧
    (∀ w ∈ answer.regs, w.1 ≠ 3) ∧ (∀ w ∈ answer.bytes, w.1 ≠ 0x10010001#32) ∧
    answer.regs = [] ++ (2, 7#32) :: [] ∧ answer.bytes = [] ++ (0x10010000#32, 0xFE) :: [] :=
  ⟨rfl, rfl, rfl, rfl, by simp [answer], by simp [answer], rfl, rfl⟩

end Sys2Proof.Tests
end

-- ==== The step of R11: settles O1 and O2 ====
section
/-! The step of R11, one equation per outcome of the fetch (in the order of R236), and the two
statements about it. -/

namespace Sys2Proof.Machine

open Sys2Proof

/-! ### What a step does -/

section
variable {s : State}

/-- D8: alignment is asked first, so nothing is assumed of `memValid` here. -/
theorem step_of_misaligned (ha : s.pc.toNat % 4 ≠ 0) :
    step s = raise (.addressError .fetch s.pc s.pc) s :=
  access_misaligned ha

theorem step_of_missing (ha : s.pc.toNat % 4 = 0) (hv : s.memValid s.pc 4 .fetch = false) :
    step s = .fault (.busFault .fetch s.pc s.pc) :=
  access_invalid ha hv

/-- R89: the environment is not asked about a reserved word. -/
theorem step_of_reserved (ha : s.pc.toNat % 4 = 0) (hv : s.memValid s.pc 4 .fetch = true)
    {e : DecodeError} (he : decodeWord (s.readWord s.pc) = .error e) :
    step s = .fault (.reservedInstruction (s.readWord s.pc) s.pc) := by
  unfold step
  rw [access_ok ha hv, he]
  exact raise_of_not_resumable rfl s

theorem step_of_decoded (ha : s.pc.toNat % 4 = 0) (hv : s.memValid s.pc 4 .fetch = true)
    {i : Instr} (hi : decodeWord (s.readWord s.pc) = .ok i) : step s = exec i s := by
  unfold step
  rw [access_ok ha hv, hi]

end

/-- R42: the four bytes from `a` on, in the byte order of the run. -/
theorem readWord_eq_append (s : State) (a : Word) :
    s.readWord a = if s.params.bigEndian
      then s.byte a ++ s.byte (a + 1) ++ s.byte (a + 2) ++ s.byte (a + 3)
      else s.byte (a + 3) ++ s.byte (a + 2) ++ s.byte (a + 1) ++ s.byte a :=
  rfl

/-! ### The statements -/

/-- Settles O1: the word the bytes make is the word that the step reads (R45). -/
theorem stepRunsDecodedInstruction : Obligations.StepRunsDecodedInstruction := by
  intro s i ha hv hi
  rw [← readWord_eq_append] at hi
  exact step_of_decoded ha hv hi

/-- Settles O2, one equation of the step per clause. -/
theorem stepEventsComeInOrder : Obligations.StepEventsComeInOrder := fun _ =>
  ⟨step_of_misaligned, step_of_missing, fun ha hv =>
    ⟨fun _ he => step_of_reserved ha hv he, fun _ hi => step_of_decoded ha hv hi⟩⟩

end Sys2Proof.Machine
end

-- ==== What any instruction may change: settles O7 and O12 to O16 ====
section
/-! The register file and the start of a run (R20, R21, R35), and the frame of every instruction
(R24, R27, R29, R33): an instruction that was no resumed trap has one of five effects, and the frame
statements are read off these. -/

namespace Sys2Proof.Machine

open Sys2Proof Sys2Proof.Safety

/-! ### Registers and reset -/

/-- Settles O12, by the rule for reading a register after a write. -/
theorem registerZeroIsHardwired : Obligations.RegisterZeroIsHardwired := by
  refine fun s v => ⟨reg_zero s, setReg_zero s v, fun r q hr => ?_⟩
  simp only [reg_setReg, and_iff_left hr]

/-- The flat region admits every access that does not run past the top of the address space. -/
theorem memValid_reset {a : Word} {n : Nat} (h : a.toNat + n ≤ 2 ^ 32) (kind : AccessKind) :
    State.reset.memValid a n kind = true := by
  refine List.all_eq_true.mpr fun i hi => ?_
  have hi' := List.mem_range.mp hi
  have hlt : a.toNat + i < 2 ^ 32 := by omega
  cases kind <;> simpa [byteValid, State.reset, flatRegion, admits] using hlt

/-- Settles O7: `pc` is 0, and the four bytes there lie in the flat region. -/
theorem resetStartsARun : Obligations.ResetStartsARun :=
  ⟨⟨rfl, rfl, memValid_reset (by decide) .fetch⟩, reg_zero _⟩

/-! ### The shared endings, read from the state they leave

`t.traps = s.traps` says that the step was no trap that the environment resumed. -/

section
variable {s t : State}

theorem writeBack_next {r : RegIdx} {v : Word} (h : writeBack r v s = .next t) :
    WritesReg r v s t := by
  obtain ⟨_, e, hw⟩ := writeBack_writes r v s
  cases e.symm.trans h
  exact hw

theorem writeHiLo_next {x y : Word} (h : writeHiLo x y s = .next t) : WritesHiLo x y s t := by
  obtain ⟨_, e, hw⟩ := writeHiLo_writes x y s
  cases e.symm.trans h
  exact hw

theorem storeBack_next {ws : List (Word × Byte)} {stored : Word → Prop}
    (hs : ∀ w ∈ ws, stored w.1) (h : storeBack ws s = .next t) : ChangesOnlyBytes stored s t := by
  obtain ⟨_, e, hw, -⟩ := storeBack_changes ws s stored hs
  cases e.symm.trans h
  exact hw

theorem writeChecked_next {r : RegIdx} {z : Int} (ht : t.traps = s.traps)
    (h : writeChecked r z s = .next t) : WritesReg r (BitVec.ofInt 32 z) s t := by
  rcases writeChecked_cases r z s with ⟨-, e⟩ | ⟨-, e⟩
  · exact writeBack_next (e ▸ h)
  · exact absurd ht (raise_next_traps_ne (e ▸ h))

/-- An access that was no resumed trap took place. -/
theorem access_next_go {kind : AccessKind} {align : Nat} {ea lo : Word} {n : Nat} {go : Result}
    (ht : t.traps = s.traps) (h : access kind align ea lo n s go = .next t) : go = .next t := by
  rcases access_next h with ⟨-, -, hgo⟩ | ⟨-, hr⟩
  · exact hgo
  · exact absurd ht (raise_next_traps_ne hr)

end

/-! ### The bytes a store writes lie in its span -/

theorem inSpan_of_mem_storeBytes {be : Bool} {a v : Word} {n : Nat} (hn : n ≤ 4) :
    ∀ w ∈ storeBytes be a n v, InSpan a n w.1 :=
  fun _ hw => ((mem_storeBytes hn).mp hw).1

/-- R193: `swl` stores at the bytes of the aligned word up to the significance of `ea`. -/
theorem inSpan_of_mem_leftStore {be : Bool} {ea v : Word} :
    ∀ w ∈ leftStore be ea v, InSpan (leftSpan be ea).1 (leftSpan be ea).2 w.1 := by
  intro w hw
  obtain ⟨hbase, hsig, -⟩ := mem_leftStore.mp hw
  have hb := congrArg BitVec.toNat hbase
  have he := toNat_wordBase ea
  rw [toNat_wordBase, toNat_wordBase] at hb
  cases be <;> simp [InSpan, leftSpan, sig, BitVec.toNat_sub] at hsig ⊢ <;> omega

/-- R194: `swr` stores at the bytes of the aligned word from the significance of `ea` on. -/
theorem inSpan_of_mem_rightStore {be : Bool} {ea v : Word} :
    ∀ w ∈ rightStore be ea v, InSpan (rightSpan be ea).1 (rightSpan be ea).2 w.1 := by
  intro w hw
  obtain ⟨hbase, hsig, -⟩ := mem_rightStore.mp hw
  have hb := congrArg BitVec.toNat hbase
  have he := toNat_wordBase ea
  rw [toNat_wordBase, toNat_wordBase] at hb
  cases be <;> simp [InSpan, rightSpan, sig, BitVec.toNat_sub] at hsig ⊢ <;> omega

/-! ### The effects an instruction can have -/

/-- The instructions that R29 lets write HI. -/
def MayWriteHi (i : Instr) : Prop := mnemonic i ∈ ["mult", "multu", "div", "divu", "mthi"]

/-- The instructions that R29 lets write LO. -/
def MayWriteLo (i : Instr) : Prop := mnemonic i ∈ ["mult", "multu", "div", "divu", "mtlo"]

/-- The branches and jumps (R132 to R145). -/
def Transfers (i : Instr) : Prop :=
  mnemonic i ∈ ["beq", "bgez", "bgezal", "bgtz", "blez", "bltzal", "bltz", "bne", "j", "jal",
    "jalr", "jr"]

/-- What `i` did when it took `s` to `t` and was no resumed trap. -/
inductive Effect (i : Instr) (s t : State) : Prop
  /-- the destination register is written, and the run advances -/
  | writesReg {r : RegIdx} {v : Word} (dest : destReg i = some r) (effect : WritesReg r v s t)
  /-- HI and LO are written where R29 admits it, and the run advances -/
  | writesHiLo (pc : t.pc = s.pc + 4) (regs : SameRegs s t) (bytes : SameBytes s t)
      (hi : t.hi = s.hi ∨ MayWriteHi i) (lo : t.lo = s.lo ∨ MayWriteLo i)
  /-- bytes of the instruction's own span are stored, and the run advances -/
  | stores {base : Word} {n : Nat} (span : storeSpan s i = some (base, n))
      (effect : ChangesOnlyBytes (InSpan base n) s t)
  /-- control is transferred -/
  | goesTo {p : Word} (transfer : Transfers i) (effect : GoesTo p s t)
  /-- control is transferred, with a link in the destination register -/
  | linksAndGoesTo {r : RegIdx} {p : Word} (transfer : Transfers i) (dest : destReg i = some r)
      (effect : LinksAndGoesTo r p s t)

section
variable {i : Instr} {s t : State}

theorem setPc_goesTo (p : Word) (s : State) : GoesTo p s (s.setPc p) :=
  ⟨rfl, fun _ => rfl, ⟨rfl, rfl⟩, fun _ => rfl, rfl, rfl, rfl, rfl⟩

theorem setReg_setPc_linksAndGoesTo (r : RegIdx) (p : Word) (s : State) :
    LinksAndGoesTo r p s ((s.setReg r s.npc).setPc p) :=
  ⟨rfl, fun _ => reg_setReg .., ⟨setReg_hi .., setReg_lo ..⟩, fun _ => setReg_byte ..,
    setReg_params .., setReg_env .., setReg_traps .., setReg_draws ..⟩

theorem effect_of_setPc {p : Word} (hi : Transfers i) (h : Host.Outcome.next (s.setPc p) =
    (.next t : Result)) : Effect i s t := by
  cases h
  exact .goesTo hi (setPc_goesTo p s)

theorem effect_of_link {r : RegIdx} {p : Word} (hi : Transfers i) (hd : destReg i = some r)
    (h : Host.Outcome.next ((s.setReg r s.npc).setPc p) = (.next t : Result)) : Effect i s t := by
  cases h
  exact .linksAndGoesTo hi hd (setReg_setPc_linksAndGoesTo r p s)

/-- R136: a linking branch that is not taken only advances. -/
theorem effect_of_branchLink {taken : Bool} {imm : Imm16} (hi : Transfers i)
    (hd : destReg i = some raReg) (h : branchLink taken imm s = .next t) : Effect i s t := by
  cases taken with
  | true => exact effect_of_link hi hd h
  | false => exact effect_of_setPc hi h

/-- R144: the case without a meaning is a fault, so a `jalr` that goes on linked. -/
theorem effect_of_execJalr {rd rs : RegIdx} (ht : t.traps = s.traps)
    (h : execJalr rd rs s = .next t) : Effect (.jalr rd rs) s t := by
  unfold execJalr at h
  split at h
  · exact absurd ht (raise_next_traps_ne h)
  · exact effect_of_link (by simp [Transfers, mnemonic]) rfl h

theorem effect_of_writeHiLo {x y : Word} (hi : MayWriteHi i) (hl : MayWriteLo i)
    (h : writeHiLo x y s = .next t) : Effect i s t := by
  obtain ⟨hpc, hregs, -, -, hbytes, -⟩ := writeHiLo_next h
  exact .writesHiLo hpc hregs hbytes (.inr hi) (.inr hl)

/-- R161. -/
theorem effect_of_drawHiLo (hi : MayWriteHi i) (hl : MayWriteLo i)
    (h : Host.Outcome.next s.drawHiLo.advance = (.next t : Result)) : Effect i s t := by
  cases h
  exact .writesHiLo rfl (fun _ => rfl) (fun _ => rfl) (.inr hi) (.inr hl)

/-- R161, R162, R163: each of the three cases writes HI and LO only. -/
theorem effect_of_execDiv {rs rt : RegIdx} (h : execDiv rs rt s = .next t) :
    Effect (.div rs rt) s t := by
  have hi : MayWriteHi (.div rs rt) := by simp [MayWriteHi, mnemonic]
  have hl : MayWriteLo (.div rs rt) := by simp [MayWriteLo, mnemonic]
  simp only [execDiv] at h
  split at h
  · exact effect_of_drawHiLo hi hl h
  · split at h <;> exact effect_of_writeHiLo hi hl h

/-- R161, R164. -/
theorem effect_of_execDivu {rs rt : RegIdx} (h : execDivu rs rt s = .next t) :
    Effect (.divu rs rt) s t := by
  have hi : MayWriteHi (.divu rs rt) := by simp [MayWriteHi, mnemonic]
  have hl : MayWriteLo (.divu rs rt) := by simp [MayWriteLo, mnemonic]
  simp only [execDivu] at h
  split at h
  · exact effect_of_drawHiLo hi hl h
  · exact effect_of_writeHiLo hi hl h

/-- R167. -/
theorem effect_of_execMthi {rs : RegIdx} (h : execMthi rs s = .next t) :
    Effect (.mthi rs) s t := by
  cases h
  exact .writesHiLo rfl (fun _ => rfl) (fun _ => rfl) (.inr (by simp [MayWriteHi, mnemonic]))
    (.inl rfl)

/-- R168. -/
theorem effect_of_execMtlo {rs : RegIdx} (h : execMtlo rs s = .next t) :
    Effect (.mtlo rs) s t := by
  cases h
  exact .writesHiLo rfl (fun _ => rfl) (fun _ => rfl) (.inl rfl)
    (.inr (by simp [MayWriteLo, mnemonic]))

/-- Everything an instruction can have done that went on and was no resumed trap. -/
theorem exec_effect (h : exec i s = .next t) (ht : t.traps = s.traps) : Effect i s t := by
  cases i with
  | add | addi | sub => exact .writesReg rfl (writeChecked_next ht h)
  | addiu | addu | and | andi | lui | nor | or | ori | slt | slti | sltiu | sltu | subu | xor | xori
  | sll | sllv | sra | srav | srl | srlv | mfhi | mflo => exact .writesReg rfl (writeBack_next h)
  | lb | lbu | lh | lhu | lw | lwl | lwr =>
    exact .writesReg rfl (writeBack_next (access_next_go ht h))
  | sb | sh | sw =>
    exact .stores rfl
      (storeBack_next (inSpan_of_mem_storeBytes (by decide)) (access_next_go ht h))
  | swl => exact .stores rfl (storeBack_next inSpan_of_mem_leftStore (access_next_go ht h))
  | swr => exact .stores rfl (storeBack_next inSpan_of_mem_rightStore (access_next_go ht h))
  | beq | bgez | bgtz | blez | bltz | bne | j | jr =>
    exact effect_of_setPc (by simp [Transfers, mnemonic]) h
  | bgezal | bltzal => exact effect_of_branchLink (by simp [Transfers, mnemonic]) rfl h
  | jal => exact effect_of_link (by simp [Transfers, mnemonic]) rfl h
  | jalr => exact effect_of_execJalr ht h
  | mult | multu =>
    exact effect_of_writeHiLo (by simp [MayWriteHi, mnemonic]) (by simp [MayWriteLo, mnemonic]) h
  | div => exact effect_of_execDiv h
  | divu => exact effect_of_execDivu h
  | mthi => exact effect_of_execMthi h
  | mtlo => exact effect_of_execMtlo h
  | syscall => exact absurd ht (raise_next_traps_ne (e := .syscall s.pc) h)

/-! ### What each effect leaves unchanged -/

theorem Effect.reg_eq (h : Effect i s t) {q : RegIdx} (hq : destReg i ≠ some q) :
    t.reg q = s.reg q := by
  have other : ∀ r, destReg i = some r → ¬ (q = r ∧ r ≠ 0) :=
    fun r hd hqr => hq (hqr.1 ▸ hd)
  cases h with
  | writesReg dest effect | linksAndGoesTo _ dest effect =>
    obtain ⟨-, hregs, -⟩ := effect
    rw [hregs, if_neg (other _ dest)]
  | stores _ effect | goesTo _ effect =>
    obtain ⟨-, hregs, -⟩ := effect
    exact hregs q
  | writesHiLo _ regs => exact regs q

theorem Effect.hiLo (h : Effect i s t) :
    (t.hi = s.hi ∨ MayWriteHi i) ∧ (t.lo = s.lo ∨ MayWriteLo i) := by
  cases h with
  | writesHiLo _ _ _ hi lo => exact ⟨hi, lo⟩
  | writesReg _ effect | stores _ effect | goesTo _ effect | linksAndGoesTo _ _ effect =>
    obtain ⟨-, -, ⟨hhi, hlo⟩, -⟩ := effect
    exact ⟨.inl hhi, .inl hlo⟩

/-- Memory changes only by a store, and then only in its span. -/
theorem Effect.bytes (h : Effect i s t) : SameBytes s t ∨
    ∃ base n, storeSpan s i = some (base, n) ∧ ∀ a, ¬ InSpan base n a → t.byte a = s.byte a := by
  cases h with
  | stores span effect =>
    obtain ⟨-, -, -, hbytes, -⟩ := effect
    exact .inr ⟨_, _, span, hbytes⟩
  | writesHiLo _ _ bytes => exact .inl bytes
  | writesReg _ effect | goesTo _ effect | linksAndGoesTo _ _ effect =>
    obtain ⟨-, -, -, same, -⟩ := effect
    exact .inl same

theorem Effect.pc_eq (h : Effect i s t) (hi : ¬ Transfers i) : t.pc = s.pc + 4 := by
  cases h with
  | goesTo transfer | linksAndGoesTo transfer => exact absurd transfer hi
  | writesHiLo pc => exact pc
  | writesReg _ effect | stores _ effect => exact effect.1

end

/-! ### The statements -/

/-- Settles O13, by the effect of each instruction. -/
theorem onlyDestinationRegisterChanges : Obligations.OnlyDestinationRegisterChanges :=
  fun _ _ _ h ht _ hq => (exec_effect h ht).reg_eq hq

/-- Settles O14, by the effect of each instruction. -/
theorem onlyMulDivAndMovesWriteHiLo : Obligations.OnlyMulDivAndMovesWriteHiLo := by
  intro i s t h ht
  obtain ⟨hhi, hlo⟩ := (exec_effect h ht).hiLo
  exact ⟨hhi.resolve_right, hlo.resolve_right⟩

/-- Settles O15: a store names its span once, so any span it is said to have is that one. -/
theorem onlyStoresChangeMemory : Obligations.OnlyStoresChangeMemory := by
  intro i s t h ht
  rcases (exec_effect h ht).bytes with same | ⟨base, n, span, outside⟩
  · exact ⟨fun _ => same, fun _ _ _ a _ => same a⟩
  · refine ⟨fun none => absurd (none.symm.trans span) nofun, fun base' n' span' => ?_⟩
    cases span.symm.trans span'
    exact outside

/-- Settles O16: the effects that do not advance are those of the transfers. -/
theorem nonTransfersAdvance : Obligations.NonTransfersAdvance :=
  fun _ _ _ h ht hi => (exec_effect h ht).pc_eq hi

end Sys2Proof.Machine
end

-- ==== The updates a step is made of: settles O10 ====
section
/-! Whatever a step does, resumed traps included, it does by the named updates of the state. A
property that each of them keeps is therefore kept by every step; the parameters of the run (R6, R12)
are one. -/

namespace Sys2Proof.Machine

open Sys2Proof

/-- One named update of the state. -/
inductive Update : State → State → Prop
  | setReg (s : State) (r : RegIdx) (v : Word) : Update s (s.setReg r v)
  | setPc (s : State) (p : Word) : Update s (s.setPc p)
  | setHi (s : State) (h : Word) : Update s (s.setHi h)
  | setLo (s : State) (l : Word) : Update s (s.setLo l)
  | setByte (s : State) (a : Word) (b : Byte) : Update s (s.setByte a b)
  | drawHiLo (s : State) : Update s s.drawHiLo
  | answered (s : State) : Update s s.answered

/-- `t` is made from `s` by named updates. -/
abbrev Updates : State → State → Prop := Relation.ReflTransGen Update

/-- What every update keeps, any number of them keeps. -/
theorem Updates.keeps {P : State → Prop} (hP : ∀ {s t}, Update s t → P s → P t)
    {s t : State} (h : Updates s t) (hs : P s) : P t := by
  induction h with
  | refl => exact hs
  | tail _ hu ih => exact hP hu ih

/-! ### The shared operations -/

section
variable {s t : State}

theorem updates_setRegs (s : State) (ws : List (RegIdx × Word)) : Updates s (s.setRegs ws) := by
  induction ws generalizing s with
  | nil => exact .refl
  | cons w ws ih => exact (ih (s.setReg w.1 w.2)).head (.setReg ..)

theorem updates_setBytes (s : State) (ws : List (Word × Byte)) : Updates s (s.setBytes ws) := by
  induction ws generalizing s with
  | nil => exact .refl
  | cons w ws ih => exact (ih (s.setByte w.1 w.2)).head (.setByte ..)

theorem updates_resumeFrom (e : Fault) (r : Resume) (s : State) : Updates s (resumeFrom e r s) :=
  ((((updates_setRegs s r.regs).tail (.setHi ..)).tail (.setLo ..)).trans
    (updates_setBytes _ r.bytes)).tail (.setPc ..)

theorem updates_of_raise {e : Fault} (h : raise e s = .next t) : Updates s t := by
  obtain ⟨r, -, -, rfl⟩ := raise_next h
  exact (updates_resumeFrom e r s.answered).head (.answered s)

theorem updates_of_writeBack {r : RegIdx} {v : Word} (h : writeBack r v s = .next t) :
    Updates s t := by
  cases h
  exact .tail (.single (.setReg ..)) (.setPc ..)

theorem updates_of_writeHiLo {x y : Word} (h : writeHiLo x y s = .next t) : Updates s t := by
  cases h
  exact .tail (.tail (.single (.setHi ..)) (.setLo ..)) (.setPc ..)

theorem updates_of_storeBack {ws : List (Word × Byte)} (h : storeBack ws s = .next t) :
    Updates s t := by
  cases h
  exact (updates_setBytes s ws).tail (.setPc ..)

theorem updates_of_drawHiLo (h : Host.Outcome.next s.drawHiLo.advance = (.next t : Result)) :
    Updates s t := by
  cases h
  exact .tail (.single (.drawHiLo s)) (.setPc ..)

theorem updates_of_setPc {p : Word} (h : Host.Outcome.next (s.setPc p) = (.next t : Result)) :
    Updates s t := by
  cases h
  exact .single (.setPc ..)

theorem updates_of_link {r : RegIdx} {p : Word}
    (h : Host.Outcome.next ((s.setReg r s.npc).setPc p) = (.next t : Result)) : Updates s t := by
  cases h
  exact .tail (.single (.setReg ..)) (.setPc ..)

theorem updates_of_writeChecked {r : RegIdx} {z : Int} (h : writeChecked r z s = .next t) :
    Updates s t := by
  rcases writeChecked_cases r z s with ⟨-, e⟩ | ⟨-, e⟩
  · exact updates_of_writeBack (e ▸ h)
  · exact updates_of_raise (e ▸ h)

theorem updates_of_access {kind : AccessKind} {align : Nat} {ea lo : Word} {n : Nat} {go : Result}
    (hgo : go = .next t → Updates s t) (h : access kind align ea lo n s go = .next t) :
    Updates s t := by
  rcases access_next h with ⟨-, -, e⟩ | ⟨-, e⟩
  · exact hgo e
  · exact updates_of_raise e

/-! ### The instructions with cases of their own -/

theorem updates_of_branchLink {taken : Bool} {imm : Imm16}
    (h : branchLink taken imm s = .next t) : Updates s t := by
  cases taken with
  | true => exact updates_of_link h
  | false => exact updates_of_setPc h

theorem updates_of_execJalr {rd rs : RegIdx} (h : execJalr rd rs s = .next t) : Updates s t := by
  unfold execJalr at h
  split at h
  · exact updates_of_raise h
  · exact updates_of_link h

theorem updates_of_execDiv {rs rt : RegIdx} (h : execDiv rs rt s = .next t) : Updates s t := by
  simp only [execDiv] at h
  split at h
  · exact updates_of_drawHiLo h
  · split at h <;> exact updates_of_writeHiLo h

theorem updates_of_execDivu {rs rt : RegIdx} (h : execDivu rs rt s = .next t) : Updates s t := by
  simp only [execDivu] at h
  split at h
  · exact updates_of_drawHiLo h
  · exact updates_of_writeHiLo h

/-- Every instruction that goes on, resumed traps included, is made of the named updates. -/
theorem updates_of_exec {i : Instr} (h : exec i s = .next t) : Updates s t := by
  cases i with
  | add | addi | sub => exact updates_of_writeChecked h
  | addiu | addu | and | andi | lui | nor | or | ori | slt | slti | sltiu | sltu | subu | xor | xori
  | sll | sllv | sra | srav | srl | srlv | mfhi | mflo => exact updates_of_writeBack h
  | lb | lbu | lh | lhu | lw | lwl | lwr => exact updates_of_access updates_of_writeBack h
  | sb | sh | sw | swl | swr => exact updates_of_access updates_of_storeBack h
  | beq | bgez | bgtz | blez | bltz | bne | j | jr => exact updates_of_setPc h
  | bgezal | bltzal => exact updates_of_branchLink h
  | jal => exact updates_of_link h
  | jalr => exact updates_of_execJalr h
  | mult | multu => exact updates_of_writeHiLo h
  | div => exact updates_of_execDiv h
  | divu => exact updates_of_execDivu h
  | mthi =>
    cases h
    exact .tail (.single (.setHi ..)) (.setPc ..)
  | mtlo =>
    cases h
    exact .tail (.single (.setLo ..)) (.setPc ..)
  | syscall => exact updates_of_raise (e := .syscall s.pc) h

/-- R11: a step that goes on ran an instruction or was a misaligned fetch, answered by the
environment. -/
theorem step_next (h : step s = .next t) :
    (∃ i, decodeWord (s.readWord s.pc) = .ok i ∧ exec i s = .next t) ∨
      raise (.addressError .fetch s.pc s.pc) s = .next t := by
  by_cases ha : s.pc.toNat % 4 = 0
  · cases hv : s.memValid s.pc 4 .fetch with
    | false => rw [step_of_missing ha hv] at h; cases h
    | true =>
      cases hd : decodeWord (s.readWord s.pc) with
      | error e => rw [step_of_reserved ha hv hd] at h; cases h
      | ok i => exact .inl ⟨i, rfl, step_of_decoded ha hv hd ▸ h⟩
  · exact .inr (step_of_misaligned ha ▸ h)

theorem updates_of_step (h : step s = .next t) : Updates s t := by
  rcases step_next h with ⟨_, -, hi⟩ | hr
  · exact updates_of_exec hi
  · exact updates_of_raise hr

/-! ### The parameters -/

theorem Update.params_eq (h : Update s t) : t.params = s.params := by
  cases h with
  | setReg r v => exact setReg_params s r v
  | setPc | setHi | setLo | setByte | drawHiLo | answered => rfl

end

/-- Settles O10: a step is made of updates, and none of them writes the parameters. -/
theorem stepKeepsParameters : Obligations.StepKeepsParameters := fun s _ h =>
  (updates_of_step h).keeps (P := fun t => t.params = s.params)
    (fun hu hs => hu.params_eq.trans hs) rfl

end Sys2Proof.Machine
end

-- ==== Addresses and bytes of memory: settles O36, O37, O38, O51 and O52 ====
section
/-! The effective address (R51), what a read of 1, 2 or 4 bytes sees of a write (R41 to R43), and
what a narrow load (R44) and a fetch (R57) see of a word store. -/

namespace Sys2Proof.Machine

open Sys2Proof Sys2Proof.Safety

/-! ### The effective address (R51) -/

/-- Adding a sign-extended immediate is adding its signed value modulo 2^32. -/
theorem add_sext_eq_ofInt (v : Word) (imm : Imm16) :
    v + sext imm = BitVec.ofInt 32 (v.toNat + imm.toInt) := by
  rw [BitVec.ofInt_add, BitVec.ofInt_natCast, BitVec.ofNat_toNat, BitVec.setWidth_eq]
  rfl

/-- Settles O36. -/
theorem effectiveAddressWraps : Obligations.EffectiveAddressWraps := by
  intro s rs offset
  rw [effAddr, add_sext_eq_ofInt, BitVec.toNat_ofInt]
  exact Int.toNat_of_nonneg (Int.emod_nonneg _ (by decide))

/-! ### Reading what was written (R42, R43) -/

@[simp] theorem setPc_readWord (s : State) (p a : Word) : (s.setPc p).readWord a = s.readWord a :=
  rfl
@[simp] theorem advance_readWord (s : State) (a : Word) : s.advance.readWord a = s.readWord a := rfl

theorem byte_memWrite (s : State) (a v : Word) {n i : Nat} (hn : n ≤ 4) (hi : i < n) :
    (s.memWrite a n v).byte (a + BitVec.ofNat 32 i) = byteOfWord s.params.bigEndian n v i := by
  have hoff : (a + BitVec.ofNat 32 i - a).toNat = i := by
    rw [BitVec.add_comm, BitVec.add_sub_cancel, BitVec.toNat_ofNat]
    omega
  rw [State.memWrite, byte_storeBytes _ _ _ _ hn, hoff, if_pos hi]

theorem byte_memWrite_of_not_inSpan (s : State) (a v : Word) {n : Nat} {x : Word} (hn : n ≤ 4)
    (hx : ¬ InSpan a n x) : (s.memWrite a n v).byte x = s.byte x := by
  rw [State.memWrite, byte_storeBytes _ _ _ _ hn]
  exact if_neg hx

/-- Two neighbouring bytes of a write are a halfword of the value written, in both byte orders. -/
theorem readHalf_memWrite (s : State) (a v : Word) {n k : Nat} (hn : n ≤ 4) (hk : k + 1 < n) :
    (s.memWrite a n v).readHalf (a + BitVec.ofNat 32 k) =
      v.extractLsb' (8 * if s.params.bigEndian then n - 2 - k else k) 16 := by
  have hnext : a + BitVec.ofNat 32 k + 1 = a + BitVec.ofNat 32 (k + 1) := by
    rw [BitVec.ofNat_add, BitVec.add_assoc]
    rfl
  rw [State.readHalf, hnext, byte_memWrite s a v hn (by omega), byte_memWrite s a v hn hk,
    memWrite_params]
  cases s.params.bigEndian with
  | false =>
    simp only [byteOfWord, Bool.false_eq_true, if_false]
    exact BitVec.extractLsb'_append_extractLsb'_eq_extractLsb' (by omega)
  | true =>
    have hlow : n - 1 - (k + 1) = n - 2 - k := by omega
    simp only [byteOfWord, if_true, hlow]
    exact BitVec.extractLsb'_append_extractLsb'_eq_extractLsb' (by omega)

/-- Settles O37. The halfword is the one at offset 0 of a write of two bytes. -/
theorem memWriteThenMemRead : Obligations.MemWriteThenMemRead := by
  intro s a v
  refine ⟨?_, ?_, readWord_memWrite s a v, fun n hn x hx => ?_⟩
  · have h := byte_memWrite s a v (n := 1) (i := 0) (by decide) (by decide)
    simpa [byteOfWord] using h
  · have h := readHalf_memWrite s a v (n := 2) (k := 0) (by decide) (by decide)
    simpa using h
  · have hn4 : n ≤ 4 := by simp at hn; omega
    exact byte_memWrite_of_not_inSpan s a v hn4 hx

/-- Settles O38: the byte of significance `sig a` in the aligned word is the one at `a` itself. -/
theorem alignedWordIsItsBytesBySignificance : Obligations.AlignedWordIsItsBytesBySignificance := by
  intro s a
  have h := sigByte_readWord s a (sig_le s.params.bigEndian a)
  rw [sigAddr_sig] at h
  exact ⟨rfl, h⟩

/-! ### Loads and the word store, where the access takes place -/

section
variable {s t : State} {rt rs : RegIdx} {offset : Imm16}

theorem exec_lb_of_valid (hv : s.memValid (effAddr s rs offset) 1 .load = true) :
    exec (.lb rt offset rs) s = writeBack rt ((s.byte (effAddr s rs offset)).signExtend 32) s :=
  access_ok (Nat.mod_one _) hv

theorem exec_lbu_of_valid (hv : s.memValid (effAddr s rs offset) 1 .load = true) :
    exec (.lbu rt offset rs) s = writeBack rt ((s.byte (effAddr s rs offset)).zeroExtend 32) s :=
  access_ok (Nat.mod_one _) hv

theorem exec_lh_of_valid (ha : (effAddr s rs offset).toNat % 2 = 0)
    (hv : s.memValid (effAddr s rs offset) 2 .load = true) : exec (.lh rt offset rs) s =
      writeBack rt ((s.readHalf (effAddr s rs offset)).signExtend 32) s :=
  access_ok ha hv

theorem exec_lhu_of_valid (ha : (effAddr s rs offset).toNat % 2 = 0)
    (hv : s.memValid (effAddr s rs offset) 2 .load = true) : exec (.lhu rt offset rs) s =
      writeBack rt ((s.readHalf (effAddr s rs offset)).zeroExtend 32) s :=
  access_ok ha hv

/-- An aligned word store that went on wrote the register, and `pc` moved on. -/
theorem eq_of_exec_sw_next (ha : (effAddr s rs offset).toNat % 4 = 0)
    (h : exec (.sw rt offset rs) s = .next t) :
    t = (s.memWrite (effAddr s rs offset) 4 (s.reg rt)).advance := by
  rcases access_next h with ⟨-, -, hstore⟩ | ⟨hmis, -⟩
  · cases hstore
    rfl
  · exact absurd ha hmis

theorem writeBack_reg {r : RegIdx} (hr : r ≠ 0) (v : Word) (s : State) :
    ∃ u, writeBack r v s = .next u ∧ u.reg r = v := by
  obtain ⟨u, hu, -, hregs, -⟩ := writeBack_writes r v s
  exact ⟨u, hu, by rw [hregs, if_pos ⟨rfl, hr⟩]⟩

end

/-! ### What a later load and a later fetch see of a word store -/

/-- Settles O51: each load reads a byte or a halfword of the write of four bytes. -/
theorem narrowLoadsSeeAWordStore : Obligations.NarrowLoadsSeeAWordStore := by
  rintro s t rt rs r base offset o a k rfl ha hsw hr hk hea
  have ht := eq_of_exec_sw_next ha hsw
  refine ⟨fun hv b hb => ?_, fun heven hv h hh => ?_⟩
  · have hread : t.byte (effAddr t base o) = b := by
      rw [hea, hb, ht]
      exact byte_memWrite s _ _ (by decide) hk
    rw [← hea] at hv
    rw [exec_lbu_of_valid hv, exec_lb_of_valid hv, hread]
    exact ⟨writeBack_reg hr _ t, writeBack_reg hr _ t⟩
  · have hread : t.readHalf (effAddr t base o) = h := by
      rw [hea, hh, ht]
      exact readHalf_memWrite s _ _ (by decide) (by omega)
    have haligned : (effAddr t base o).toNat % 2 = 0 := by
      rw [hea, BitVec.toNat_add, BitVec.toNat_ofNat]
      omega
    rw [← hea] at hv
    rw [exec_lhu_of_valid haligned hv, exec_lh_of_valid haligned hv, hread]
    exact ⟨writeBack_reg hr _ t, writeBack_reg hr _ t⟩

/-- Settles O52: the word at the address is the one stored, so the step decodes it (R45). -/
theorem storedWordIsFetched : Obligations.StoredWordIsFetched := by
  rintro s t rt rs offset a i rfl ha hsw hdec hv
  have hword : t.readWord (effAddr s rs offset) = s.reg rt := by
    rw [eq_of_exec_sw_next ha hsw, advance_readWord, readWord_memWrite]
  refine step_of_decoded ?_ ?_ ?_
  · rwa [setPc_pc]
  · rw [setPc_pc]
    exact hv
  · rwa [setPc_pc, setPc_readWord, hword]

end Sys2Proof.Machine
end

-- ==== The decoder, the encoder and the opcode table: settles O4, O5 and O6 ====
section
/-! Decoder and encoder are inverse to each other (R80, R90), by the layout of the word (R72 to
R75), and the decoder follows the opcode table: a row's `mask` and `match` fix some of a word's six
fields, and the decoder looks at exactly those. -/

namespace Sys2Proof

open Sys2Proof.Safety

/-! ### Decoding what the encoder made -/

section
variable {w : Word} {i : Instr}

@[simp] theorem strict_true : strict true w i = .ok i := rfl

/-- R81. -/
theorem decodeWord_eq_decodeR (h : opOf w = 0#6) : decodeWord w = decodeR w := by
  simp only [decodeWord, h]

/-- R82. -/
theorem decodeWord_eq_decodeRI (h : opOf w = 1#6) : decodeWord w = decodeRI w := by
  simp only [decodeWord, h]

/-- A constant shift amount survives its five-bit field (R76). -/
theorem toNat_ofNat_shiftAmount {sa : Nat} (h : sa < 32) : (BitVec.ofNat 5 sa).toNat = sa := by
  rw [BitVec.toNat_ofNat, Nat.mod_eq_of_lt h]

theorem decodeWord_encode (hwf : i.wellFormed = true) : decodeWord (encode i) = .ok i := by
  cases i with
  | sll | sra | srl =>
    rw [encode, decodeWord_eq_decodeR (opOf_encodeR ..)]
    simp [decodeR, toNat_ofNat_shiftAmount (of_decide_eq_true hwf)]
  | add | addu | and | nor | or | slt | sltu | sub | subu | xor | sllv | srav | srlv | div | divu
  | mult | multu | mfhi | mflo | mthi | mtlo | jalr | jr | syscall =>
    rw [encode, decodeWord_eq_decodeR (opOf_encodeR ..)]
    simp [decodeR]
  | bltz | bgez | bltzal | bgezal =>
    rw [encode, decodeWord_eq_decodeRI (opOf_encodeI ..)]
    simp [decodeRI]
  | beq | bne | blez | bgtz | j | jal | addi | addiu | slti | sltiu | andi | ori | xori | lui
  | lb | lbu | lh | lhu | lw | lwl | lwr | sb | sh | sw | swl | swr => simp [encode, decodeWord]

/-! ### Encoding what the decoder made

In each arm the fields that select it, and the zeros that `strict` asks for, are the ones the
encoder puts there; the word is the join of its fields. -/

theorem encode_of_decodeR_ok (hop : opOf w = 0#6) (h : decodeR w = .ok i) :
    i.wellFormed = true ∧ encode i = w := by
  have hsa : decide ((saOf w).toNat < 32) = true := decide_eq_true (saOf w).isLt
  have hw := encodeR_fields hop
  unfold decodeR at h
  split at h <;> rename_i hfunct <;> simp only [strict_eq_ok, reduceCtorEq] at h
  all_goals
    obtain ⟨hzero, rfl⟩ := h
    simp only [Bool.and_eq_true, beq_iff_eq, BitVec.ofNat_eq_ofNat] at hzero
    simp only [hzero, hfunct] at hw
    exact ⟨by simp only [Instr.wellFormed, hsa], by simpa [encode] using hw⟩

theorem encode_of_decodeRI_ok (hop : opOf w = 1#6) (h : decodeRI w = .ok i) :
    i.wellFormed = true ∧ encode i = w := by
  have hw := encodeI_fields w
  unfold decodeRI at h
  split at h <;> rename_i hcode <;> simp only [Except.ok.injEq, reduceCtorEq] at h
  all_goals
    subst h
    rw [hop, hcode] at hw
    exact ⟨rfl, hw⟩

theorem encode_of_decodeWord_ok (h : decodeWord w = .ok i) :
    i.wellFormed = true ∧ encode i = w := by
  have hI := encodeI_fields w
  have hJ := encodeJ_fields w
  unfold decodeWord at h
  split at h <;> rename_i hop
  · exact encode_of_decodeR_ok hop h
  · exact encode_of_decodeRI_ok hop h
  all_goals
    simp only [strict_eq_ok, Except.ok.injEq, beq_iff_eq, reduceCtorEq] at h
  all_goals
    rw [hop] at hI hJ
  -- `j`, `jal`
  case h_3 | h_4 =>
    subst h
    exact ⟨rfl, hJ⟩
  -- `blez`, `bgtz`, `lui`: the rows of these layouts with a field of zeros
  case h_7 | h_8 | h_16 =>
    obtain ⟨hzero, rfl⟩ := h
    rw [hzero] at hI
    exact ⟨rfl, hI⟩
  all_goals
    subst h
    exact ⟨rfl, hI⟩

end

/-- Settles O4, by the layout of each instruction. -/
theorem decodeInvertsEncode : Obligations.DecodeInvertsEncode := fun _ hwf => decodeWord_encode hwf

/-- Settles O5, by the arms of the decoder. -/
theorem encodeInvertsDecode : Obligations.EncodeInvertsDecode :=
  fun _ _ h => encode_of_decodeWord_ok h

/-! ### Masks, field by field -/

section
variable (w v : Word)

@[simp] theorem opOf_and : opOf (w &&& v) = opOf w &&& opOf v := BitVec.extractLsb'_and
@[simp] theorem rsOf_and : rsOf (w &&& v) = rsOf w &&& rsOf v := BitVec.extractLsb'_and
@[simp] theorem rtOf_and : rtOf (w &&& v) = rtOf w &&& rtOf v := BitVec.extractLsb'_and
@[simp] theorem rdOf_and : rdOf (w &&& v) = rdOf w &&& rdOf v := BitVec.extractLsb'_and
@[simp] theorem saOf_and : saOf (w &&& v) = saOf w &&& saOf v := BitVec.extractLsb'_and
@[simp] theorem functOf_and : functOf (w &&& v) = functOf w &&& functOf v :=
  BitVec.extractLsb'_and

/-- The immediate lies where layout R has its last three fields (R71). -/
theorem imm16Of_eq_append : imm16Of w = rdOf w ++ saOf w ++ functOf w := by
  apply BitVec.eq_of_toNat_eq
  simp only [imm16Of, rdOf, saOf, functOf, toNat_append_eq, toNat_field]
  omega

variable {w v}

theorem word_eq_iff_fields : w = v ↔
    opOf w = opOf v ∧ rsOf w = rsOf v ∧ rtOf w = rtOf v ∧ rdOf w = rdOf v ∧ saOf w = saOf v ∧
      functOf w = functOf v := by
  refine ⟨fun h => h ▸ ⟨rfl, rfl, rfl, rfl, rfl, rfl⟩, fun ⟨hop, hrs, hrt, hrd, hsa, hf⟩ => ?_⟩
  rw [← encodeI_fields w, ← encodeI_fields v, imm16Of_eq_append, imm16Of_eq_append, hop, hrs, hrt,
    hrd, hsa, hf]

/-- What R80's `word & mask = match` says of each field. The fields of `mask` and `match` are
written out as bits, so that they evaluate where the two are literals. -/
theorem and_eq_iff_fields {mask : Word} : w &&& mask = v ↔
    opOf w &&& mask.extractLsb' 26 6 = v.extractLsb' 26 6 ∧
    rsOf w &&& mask.extractLsb' 21 5 = v.extractLsb' 21 5 ∧
    rtOf w &&& mask.extractLsb' 16 5 = v.extractLsb' 16 5 ∧
    rdOf w &&& mask.extractLsb' 11 5 = v.extractLsb' 11 5 ∧
    saOf w &&& mask.extractLsb' 6 5 = v.extractLsb' 6 5 ∧
    functOf w &&& mask.extractLsb' 0 6 = v.extractLsb' 0 6 := by
  rw [word_eq_iff_fields, opOf_and, rsOf_and, rtOf_and, rdOf_and, saOf_and, functOf_and]
  exact Iff.rfl

end

@[simp] theorem and_five_ones (x : BitVec 5) : x &&& 31#5 = x := BitVec.and_allOnes

@[simp] theorem and_six_ones (x : BitVec 6) : x &&& 63#6 = x := BitVec.and_allOnes

/-! ### The rows of the opcode table -/

/-- The row with the mnemonic of an instruction is one that the instruction's word matches: the bits
under the mask are no operand's. -/
theorem encode_matches_lookup (i : Instr) :
    ∃ row, opcodeRows.lookup (mnemonic i) = some row ∧ encode i &&& row.1 = row.2 := by
  cases i <;> exact ⟨_, rfl, by simp [encode, and_eq_iff_fields]⟩

theorem encode_matches_row (i : Instr) :
    ∃ row ∈ opcodeRows, row.1 = mnemonic i ∧ encode i &&& row.2.1 = row.2.2 := by
  obtain ⟨row, hrow, hmatch⟩ := encode_matches_lookup i
  obtain ⟨before, after, htable, -⟩ := List.lookup_eq_some_iff.mp hrow
  exact ⟨(mnemonic i, row), by simp [htable], rfl, hmatch⟩

section
variable {w : Word} {row : String × Word × Word}

/-- Row by row: the fields that the row fixes are those that lead the decoder to the instruction. -/
theorem decodes_of_matches_rowsA (hrow : row ∈ opcodeRowsA) (h : w &&& row.2.1 = row.2.2) :
    ∃ i, decodeWord w = .ok i ∧ mnemonic i = row.1 := by
  have hfields := and_eq_iff_fields.mp h
  fin_cases hrow
  all_goals
    simp only [BitVec.reduceExtractLsb', and_five_ones, and_six_ones, BitVec.and_zero] at hfields
    simp [decodeWord, decodeR, decodeRI, hfields, mnemonic]

/-- Row by row, as for the first rows. -/
theorem decodes_of_matches_rowsB (hrow : row ∈ opcodeRowsB) (h : w &&& row.2.1 = row.2.2) :
    ∃ i, decodeWord w = .ok i ∧ mnemonic i = row.1 := by
  have hfields := and_eq_iff_fields.mp h
  fin_cases hrow
  all_goals
    simp only [BitVec.reduceExtractLsb', and_five_ones, and_six_ones, BitVec.and_zero] at hfields
    simp [decodeWord, decodeR, hfields, mnemonic]

theorem decodes_of_matches_row (hrow : row ∈ opcodeRows) (h : w &&& row.2.1 = row.2.2) :
    ∃ i, decodeWord w = .ok i ∧ mnemonic i = row.1 :=
  (List.mem_append.mp hrow).elim (decodes_of_matches_rowsA · h) (decodes_of_matches_rowsB · h)

end

/-- Settles O6: a word that decodes is the encoding of its instruction, which matches the row; and
the row's fields lead the decoder to it. -/
theorem decoderFollowsOpcodeTable : Obligations.DecoderFollowsOpcodeTable := by
  refine fun w m => ⟨?_, ?_⟩
  · rintro ⟨i, hi, rfl⟩
    obtain ⟨-, rfl⟩ := encode_of_decodeWord_ok hi
    exact encode_matches_row i
  · rintro ⟨row, hrow, rfl, hmatch⟩
    exact decodes_of_matches_row hrow hmatch

end Sys2Proof
end

-- ==== lui then ori, and the zero word (R91, R93): settles O25 and O29 ====
section
/-! The load of a 32-bit constant in two instructions (R93), and the no-operation (R91). -/

namespace Sys2Proof.Machine

open Sys2Proof Sys2Proof.Safety

/-- R106 and R109: the two halves do not overlap, so the `or` joins them. -/
theorem upper_or_zext (hi lo : Imm16) : upper hi ||| zext lo = hi ++ lo := by
  apply BitVec.eq_of_toNat_eq
  have hlo : (zext lo).toNat = lo.toNat := BitVec.toNat_setWidth_of_le (by decide)
  rw [BitVec.toNat_or, hlo, upper, BitVec.toNat_append, BitVec.toNat_append]
  simp

theorem append_halves (c : Word) : c.extractLsb' 16 16 ++ c.extractLsb' 0 16 = c := by
  apply BitVec.eq_of_toNat_eq
  simp only [toNat_append_eq, toNat_field]
  omega

theorem exec_lui_writes (rt : RegIdx) (imm : Imm16) (s : State) :
    ∃ t, exec (.lui rt imm) s = .next t ∧ WritesReg rt (upper imm) s t :=
  writeBack_writes rt (upper imm) s

theorem exec_ori_writes (rt rs : RegIdx) (imm : Imm16) (s : State) :
    ∃ t, exec (.ori rt rs imm) s = .next t ∧ WritesReg rt (s.reg rs ||| zext imm) s t :=
  writeBack_writes rt (s.reg rs ||| zext imm) s

/-- Settles O25: `ori` finds the upper half in the register that `lui` wrote. -/
theorem luiThenOriLoadsAnyConstant : Obligations.LuiThenOriLoadsAnyConstant := by
  intro s r rt c hr hrt
  obtain ⟨t, hlui, htpc, htreg, ⟨hthi, htlo⟩, htbytes, -⟩ :=
    exec_lui_writes r (c.extractLsb' 16 16) s
  obtain ⟨u, hori, hupc, hureg, ⟨huhi, hulo⟩, hubytes, -⟩ :=
    exec_ori_writes rt r (c.extractLsb' 0 16) t
  have hupper : t.reg r = upper (c.extractLsb' 16 16) := by rw [htreg, if_pos ⟨rfl, hr⟩]
  refine ⟨t, u, hlui, hori, ?_, ?_, fun q hqr hqrt => ?_, ⟨?_, ?_⟩, fun a => ?_⟩
  · rw [hureg, if_pos ⟨rfl, hrt⟩, hupper, upper_or_zext, append_halves]
  · rw [hupc, htpc, BitVec.add_assoc]
    rfl
  · rw [hureg, if_neg fun h => hqrt h.1, htreg, if_neg fun h => hqr h.1]
  · rw [huhi, hthi]
  · rw [hulo, htlo]
  · rw [hubytes, htbytes]

/-- R21: an instruction whose destination is register 0 only advances. -/
theorem writeBack_zero (v : Word) (s : State) : writeBack 0 v s = .next (s.setPc (s.pc + 4)) :=
  congrArg (fun t : State => Host.Outcome.next t.advance) (setReg_zero s v)

/-- Settles O29: the destination of `sll 0 0 0` is register 0. -/
theorem zeroWordIsNoOperation : Obligations.ZeroWordIsNoOperation :=
  ⟨rfl, fun s => ⟨_, writeBack_zero _ s, setPc_goesTo _ s⟩⟩

end Sys2Proof.Machine
end

-- ==== Arithmetic, logic and comparison: settles O19 to O24 and O26 ====
section
/-! The instructions of R100 to R117. Each ends in `writeBack` or in `writeChecked`; what is left to
say is which number, or which bits, the value written holds. -/

namespace Sys2Proof.Machine

open Sys2Proof Sys2Proof.Safety

/-! ### Overflow (R118) -/

theorem fitsSigned_eq_false_iff {z : Int} :
    fitsSigned z = false ↔ z < -2 ^ 31 ∨ 2 ^ 31 - 1 < z := by
  rw [← Bool.not_eq_true, fitsSigned_iff]
  omega

/-- The sum of two signed words overflows when the operands agree in sign and the sum does not. -/
theorem fitsSigned_add_eq_false_iff (a b : Word) :
    fitsSigned (a.toInt + b.toInt) = false ↔ a.msb = b.msb ∧ (a + b).msb ≠ a.msb := by
  have htest : a.saddOverflow b = true ↔ a.msb = b.msb ∧ (a + b).msb ≠ a.msb := by
    simp [BitVec.saddOverflow_eq]
  rw [← htest, fitsSigned_eq_false_iff, BitVec.saddOverflow]
  simp only [Bool.or_eq_true, decide_eq_true_eq]
  omega

/-- The difference overflows when the operands differ in sign and the difference has the sign of the
second. -/
theorem fitsSigned_sub_eq_false_iff (a b : Word) :
    fitsSigned (a.toInt - b.toInt) = false ↔ a.msb ≠ b.msb ∧ (a - b).msb ≠ a.msb := by
  have htest : a.ssubOverflow b = true ↔ a.msb ≠ b.msb ∧ (a - b).msb ≠ a.msb := by
    rw [BitVec.ssubOverflow_eq]
    cases a.msb <;> cases b.msb <;> simp
  rw [← htest, fitsSigned_eq_false_iff, BitVec.ssubOverflow]
  simp only [Bool.or_eq_true, decide_eq_true_eq]
  omega

/-- Settles O20. -/
theorem overflowIsTheBitTest : Obligations.OverflowIsTheBitTest := fun a b =>
  ⟨fitsSigned_add_eq_false_iff a b, fitsSigned_sub_eq_false_iff a b⟩

/-! ### The numbers that words and immediates stand for (R9) -/

@[simp] theorem toInt_sext (imm : Imm16) : (sext imm).toInt = imm.toInt :=
  BitVec.toInt_signExtend_of_le (by decide)

/-- Subtracting and wrapping is wrapping and subtracting. -/
theorem ofInt_sub {w : Nat} (x y : Int) :
    BitVec.ofInt w (x - y) = BitVec.ofInt w x - BitVec.ofInt w y := by
  apply BitVec.eq_of_toInt_eq
  rw [BitVec.toInt_sub, BitVec.toInt_ofInt, BitVec.toInt_ofInt, BitVec.toInt_ofInt,
    Int.bmod_sub_bmod, Int.sub_bmod_bmod]

theorem ofInt_toInt_add (a b : Word) : BitVec.ofInt 32 (a.toInt + b.toInt) = a + b := by
  rw [BitVec.ofInt_add, BitVec.ofInt_toInt, BitVec.ofInt_toInt]

theorem ofInt_toInt_sub (a b : Word) : BitVec.ofInt 32 (a.toInt - b.toInt) = a - b := by
  rw [ofInt_sub, BitVec.ofInt_toInt, BitVec.ofInt_toInt]

theorem ofNat_toNat_add (a b : Word) : BitVec.ofNat 32 (a.toNat + b.toNat) = a + b := by
  simp only [BitVec.ofNat_add, BitVec.ofNat_toNat, BitVec.setWidth_eq]

theorem ofInt_toNat_sub (a b : Word) : BitVec.ofInt 32 (a.toNat - b.toNat : Int) = a - b := by
  simp only [ofInt_sub, BitVec.ofInt_natCast, BitVec.ofNat_toNat, BitVec.setWidth_eq]

theorem toNat_upper (imm : Imm16) : (upper imm).toNat = imm.toNat * 2 ^ 16 := by
  rw [upper, toNat_append_eq, BitVec.toNat_zero, Nat.add_zero]

/-- A zero-extended immediate has zeros above its 16 bits. -/
theorem getLsbD_zext (imm : Imm16) {k : Nat} (hk : k < 32) :
    (zext imm).getLsbD k = (decide (k < 16) && imm.getLsbD k) := by
  rw [zext, BitVec.zeroExtend, BitVec.getLsbD_setWidth, decide_eq_true hk, Bool.true_and]
  by_cases h : k < 16
  · rw [decide_eq_true h, Bool.true_and]
  · rw [decide_eq_false h, Bool.false_and, BitVec.getLsbD_of_ge _ _ (by omega)]

theorem boolWord_decide (p : Prop) [Decidable p] : boolWord (decide p) = if p then 1 else 0 := by
  simp only [boolWord, decide_eq_true_eq]

/-! ### The value an instruction writes -/

/-- `writeBack` writes a value of which whatever is known of `v` holds. -/
theorem writeBack_writes_value {P : Word → Prop} (r : RegIdx) (v : Word) (s : State) (hv : P v) :
    ∃ w t, writeBack r v s = .next t ∧ WritesReg r w s t ∧ P w := by
  obtain ⟨t, ht, hw⟩ := writeBack_writes r v s
  exact ⟨v, t, ht, hw, hv⟩

/-- The same for a value known in another form. -/
theorem writeBack_writes_eq {v w : Word} (r : RegIdx) (s : State) (h : v = w) :
    ∃ t, writeBack r v s = .next t ∧ WritesReg r w s t := h ▸ writeBack_writes r v s

/-- D22: the exact result, or the overflow exception from the unchanged state. -/
theorem writeChecked_exact_or_raises (r : RegIdx) (z : Int) (s : State) :
    (-2 ^ 31 ≤ z ∧ z ≤ 2 ^ 31 - 1 →
      ∃ v t, writeChecked r z s = .next t ∧ WritesReg r v s t ∧ v.toInt = z) ∧
    (z < -2 ^ 31 ∨ 2 ^ 31 - 1 < z →
      writeChecked r z s = raise (.integerOverflow s.pc) s) := by
  rcases writeChecked_cases r z s with ⟨hfits, e⟩ | ⟨hover, e⟩
  · have hrange := fitsSigned_iff.mp hfits
    rw [e]
    exact ⟨fun _ => writeBack_writes_value r _ s (toInt_ofInt_of_fits hfits),
      fun hz => by omega⟩
  · have hrange := fitsSigned_eq_false_iff.mp hover
    exact ⟨fun hz => by omega, fun _ => e⟩

/-- A checked write that was no resumed trap is the write of the wrapped result. -/
theorem writeBack_of_writeChecked_next {r : RegIdx} {z : Int} {s t : State}
    (ht : t.traps = s.traps) (h : writeChecked r z s = .next t) :
    writeBack r (BitVec.ofInt 32 z) s = .next t := by
  rcases writeChecked_cases r z s with ⟨-, e⟩ | ⟨-, e⟩
  · exact e ▸ h
  · exact absurd ht (raise_next_traps_ne (e ▸ h))

/-! ### The statements -/

/-- Settles O19: where the overflow is, R118 says; what follows from it, the checked write. -/
theorem checkedArithmeticWritesOrTraps : Obligations.CheckedArithmeticWritesOrTraps := by
  intro s rd rs rt imm
  refine ⟨⟨decodeWord_encode (i := .add rd rs rt) rfl, decodeWord_encode (i := .addi rt rs imm) rfl,
    decodeWord_encode (i := .sub rd rs rt) rfl⟩, ?add, ?addi, ?sub⟩
  case add =>
    rintro _ rfl
    exact ⟨fitsSigned_eq_false_iff.symm.trans (fitsSigned_add_eq_false_iff ..),
      writeChecked_exact_or_raises rd _ s⟩
  case addi =>
    rintro _ rfl
    rw [← toInt_sext]
    exact writeChecked_exact_or_raises rt _ s
  case sub =>
    rintro _ rfl
    exact ⟨fitsSigned_eq_false_iff.symm.trans (fitsSigned_sub_eq_false_iff ..),
      writeChecked_exact_or_raises rd _ s⟩

/-- Settles O21: words wrap as the numbers do modulo 2^32. -/
theorem wrappingArithmeticCompletes : Obligations.WrappingArithmeticCompletes := by
  intro s rd rs rt imm
  refine ⟨⟨decodeWord_encode (i := .addiu rt rs imm) rfl,
    decodeWord_encode (i := .addu rd rs rt) rfl, decodeWord_encode (i := .subu rd rs rt) rfl⟩,
    writeBack_writes_eq rt s ?_, writeBack_writes_eq rd s (ofNat_toNat_add ..).symm,
    writeBack_writes_eq rd s (ofInt_toNat_sub ..).symm⟩
  rw [← toInt_sext, ofInt_toInt_add]

/-- Settles O22: both forms write the result modulo 2^32. -/
theorem checkedAndWrappingAgree : Obligations.CheckedAndWrappingAgree := by
  intro s t rd rs rt imm ht
  refine ⟨fun h => ?add, fun h => ?addi, fun h => ?sub⟩
  case add | addi =>
    have hw := writeBack_of_writeChecked_next ht h
    rwa [ofInt_toInt_add] at hw
  case sub =>
    have hw := writeBack_of_writeChecked_next ht h
    rwa [ofInt_toInt_sub] at hw

/-- Settles O23: the machine's word operations are bitwise, and a zero-extended immediate is known
bit by bit. -/
theorem logicIsBitwise : Obligations.LogicIsBitwise := by
  intro s rd rs rt imm
  refine ⟨⟨decodeWord_encode (i := .and rd rs rt) rfl, decodeWord_encode (i := .or rd rs rt) rfl,
    decodeWord_encode (i := .xor rd rs rt) rfl, decodeWord_encode (i := .nor rd rs rt) rfl,
    decodeWord_encode (i := .andi rt rs imm) rfl, decodeWord_encode (i := .ori rt rs imm) rfl,
    decodeWord_encode (i := .xori rt rs imm) rfl⟩, ?and, ?or, ?xor, ?nor, ?andi, ?ori, ?xori⟩
  case and => exact writeBack_writes_value rd _ s fun _ _ => BitVec.getLsbD_and
  case or => exact writeBack_writes_value rd _ s fun _ _ => BitVec.getLsbD_or
  case xor => exact writeBack_writes_value rd _ s fun _ _ => BitVec.getLsbD_xor
  case nor =>
    refine writeBack_writes_value rd _ s fun k hk => ?_
    rw [BitVec.getLsbD_not, BitVec.getLsbD_or, decide_eq_true hk, Bool.true_and]
  case andi =>
    refine writeBack_writes_value rt _ s fun k hk => ?_
    rw [BitVec.getLsbD_and, getLsbD_zext imm hk]
  case ori =>
    refine writeBack_writes_value rt _ s fun k hk => ?_
    rw [BitVec.getLsbD_or, getLsbD_zext imm hk]
  case xori =>
    refine writeBack_writes_value rt _ s fun k hk => ?_
    rw [BitVec.getLsbD_xor, getLsbD_zext imm hk]

/-- Settles O24. -/
theorem loadUpperImmediateWrites : Obligations.LoadUpperImmediateWrites := fun s rt imm =>
  ⟨decodeWord_encode (i := .lui rt imm) rfl, writeBack_writes_value rt _ s (toNat_upper imm)⟩

/-- Settles O26: `slti` compares the signed value of the immediate itself, `sltiu` the word that it
extends to. -/
theorem comparisonsWriteOneOrZero : Obligations.ComparisonsWriteOneOrZero := by
  intro s rd rs rt imm
  refine ⟨⟨decodeWord_encode (i := .slt rd rs rt) rfl, decodeWord_encode (i := .sltu rd rs rt) rfl,
    decodeWord_encode (i := .slti rt rs imm) rfl, decodeWord_encode (i := .sltiu rt rs imm) rfl⟩,
    writeBack_writes_eq rd s (boolWord_decide _), writeBack_writes_eq rt s ?_,
    writeBack_writes_eq rd s (boolWord_decide _), writeBack_writes_eq rt s (boolWord_decide _)⟩
  rw [signedLess, boolWord_decide, toInt_sext]

end Sys2Proof.Machine
end

-- ==== Branches and jumps: settles O17 and O53 to O57 ====
section
/-! The transfers of control (R131 to R146). Each ends in `setPc`, with or without a link before it;
what is left to say is when it goes, and which number its target is. -/

namespace Sys2Proof.Machine

open Sys2Proof Sys2Proof.Safety

/-! ### Targets as numbers -/

/-- Two places to the left is four times the signed value, modulo 2^32. -/
theorem sext_shiftLeft_two (imm : Imm16) : sext imm <<< 2 = BitVec.ofInt 32 (4 * imm.toInt) := by
  rw [BitVec.shiftLeft_eq_mul_twoPow, BitVec.mul_comm, BitVec.ofInt_mul]
  rfl

/-- R131. -/
theorem branchTarget_eq_ofInt (s : State) (imm : Imm16) :
    branchTarget s imm = BitVec.ofInt 32 (s.pc.toNat + 4 + 4 * imm.toInt) := by
  rw [branchTarget, sext_shiftLeft_two, BitVec.ofInt_add, BitVec.ofInt_add, BitVec.ofInt_natCast,
    BitVec.ofNat_toNat, BitVec.setWidth_eq]
  rfl

/-- R141: the target as a number, its three parts one above the other. -/
theorem toNat_jumpTarget (s : State) (imm : Imm26) :
    (jumpTarget s imm).toNat = s.npc.toNat / 2 ^ 28 * 2 ^ 28 + 4 * imm.toNat := by
  have hpc := s.npc.isLt
  show ((_ ++ _ ++ _ : BitVec (4 + 26 + 2))).toNat = _
  simp only [toNat_append_eq, toNat_field, BitVec.toNat_ofNat]
  omega

theorem jumpTarget_eq_ofNat (s : State) (imm : Imm26) : jumpTarget s imm =
    BitVec.ofNat 32 ((s.pc + 4).toNat / 2 ^ 28 * 2 ^ 28 + 4 * imm.toNat) := by
  rw [← State.npc, ← toNat_jumpTarget, BitVec.ofNat_toNat, BitVec.setWidth_eq]

/-! ### Alignment of the targets (R146) -/

section
variable {s t : State}

theorem npc_aligned (ha : s.pc.toNat % 4 = 0) : s.npc.toNat % 4 = 0 := by
  rw [State.npc, BitVec.toNat_add, show (4 : Word).toNat = 4 from rfl]
  omega

theorem branchTarget_aligned (ha : s.pc.toNat % 4 = 0) (imm : Imm16) :
    (branchTarget s imm).toNat % 4 = 0 := by
  rw [branchTarget_eq_ofInt, BitVec.toNat_ofInt]
  omega

/-- The two zeros below the immediate align the target, wherever the jump stands. -/
theorem jumpTarget_aligned (s : State) (imm : Imm26) : (jumpTarget s imm).toNat % 4 = 0 := by
  rw [toNat_jumpTarget]
  omega

theorem branch_next_aligned {taken : Bool} {imm : Imm16} (ha : s.pc.toNat % 4 = 0)
    (h : branch taken imm s = .next t) : t.pc.toNat % 4 = 0 := by
  cases h
  cases taken with
  | true => exact branchTarget_aligned ha imm
  | false => exact npc_aligned ha

theorem branchLink_next_aligned {taken : Bool} {imm : Imm16} (ha : s.pc.toNat % 4 = 0)
    (h : branchLink taken imm s = .next t) : t.pc.toNat % 4 = 0 := by
  cases taken with
  | true =>
    cases h
    exact branchTarget_aligned ha imm
  | false =>
    cases h
    exact npc_aligned ha

end

/-! ### When a branch goes, and what it leaves -/

section
variable (s : State) (imm : Imm16) {P Q : Prop} [Decidable P] [Decidable Q]

/-- A branch whose condition is known in another form. -/
theorem branch_goesTo_of_iff (h : P ↔ Q) : ∃ t, branch (decide P) imm s = .next t ∧
    GoesTo (if Q then branchTarget s imm else s.pc + 4) s t := by
  have hpc : (if decide P then branchTarget s imm else s.npc) =
      if Q then branchTarget s imm else s.pc + 4 := if_congr (decide_eq_true_iff.trans h) rfl rfl
  exact ⟨_, rfl, hpc ▸ setPc_goesTo _ s⟩

/-- A branch whose condition is known by its opposite. -/
theorem branch_goesTo_of_iff_not (h : P ↔ ¬ Q) : ∃ t, branch (decide P) imm s = .next t ∧
    GoesTo (if Q then s.pc + 4 else branchTarget s imm) s t := by
  rw [← ite_not]
  exact branch_goesTo_of_iff s imm h

theorem branchLink_links (h : P) : ∃ t, branchLink (decide P) imm s = .next t ∧
    LinksAndGoesTo raReg (branchTarget s imm) s t := by
  rw [decide_eq_true h]
  exact ⟨_, rfl, setReg_setPc_linksAndGoesTo ..⟩

/-- R136: no link without the branch. -/
theorem branchLink_goesTo (h : ¬ P) : ∃ t, branchLink (decide P) imm s = .next t ∧
    GoesTo (s.pc + 4) s t := by
  rw [decide_eq_false h]
  exact ⟨_, rfl, setPc_goesTo ..⟩

end

/-! ### The sign of a word, by its top bit -/

section
variable {v : Word}

theorem toInt_neg_iff_msb : v.toInt < 0 ↔ v.msb = true := by
  rw [BitVec.msb_eq_toInt, decide_eq_true_iff]

theorem toInt_nonneg_iff_not_msb : 0 ≤ v.toInt ↔ ¬ v.msb = true := by
  rw [← toInt_neg_iff_msb, not_lt]

theorem toInt_eq_zero_iff : v.toInt = 0 ↔ v = 0 :=
  BitVec.toInt_inj (y := 0)

theorem toInt_nonpos_iff : v.toInt ≤ 0 ↔ v.msb = true ∨ v = 0 := by
  rw [le_iff_lt_or_eq, toInt_neg_iff_msb, toInt_eq_zero_iff]

theorem toInt_pos_iff : 0 < v.toInt ↔ v.msb = false ∧ v ≠ 0 := by
  rw [← not_le, toInt_nonpos_iff, not_or, Bool.not_eq_true]

end

/-! ### Jumps through a register -/

/-- R146, D8: the fetch at a misaligned `pc` raises, whatever memory there is. -/
theorem step_at_misaligned {t : State} {p : Word} (hp : t.pc = p) (ha : p.toNat % 4 ≠ 0) :
    step t = raise (.addressError .fetch p p) t := by
  subst hp
  exact step_of_misaligned ha

/-- R144: the case without a meaning stops; the environment is not asked. -/
theorem execJalr_self {r : RegIdx} (hr : r ≠ 0) (s : State) :
    execJalr r r s = .fault (.unpredictable s.pc) := by
  rw [execJalr, if_pos ⟨rfl, hr⟩]
  exact raise_of_not_resumable rfl s

/-- R143. -/
theorem execJalr_links {rd rs : RegIdx} (h : rs ≠ rd ∨ rd = 0) (s : State) :
    ∃ t, execJalr rd rs s = .next t ∧ LinksAndGoesTo rd (s.reg rs) s t := by
  have hgo : ¬ (rs = rd ∧ rd ≠ 0) := fun ⟨heq, hne⟩ => h.elim (· heq) hne
  rw [execJalr, if_neg hgo]
  exact ⟨_, rfl, setReg_setPc_linksAndGoesTo ..⟩

/-! ### The statements -/

/-- Settles O17: what transfers no control adds 4, and the targets that are no register are
aligned. -/
theorem onlyRegisterJumpsMisalign : Obligations.OnlyRegisterJumpsMisalign := by
  intro i s t h ht ha hi
  cases i with
  | jr | jalr => simp [mnemonic] at hi
  | beq | bne | bgez | bgtz | blez | bltz => exact branch_next_aligned ha h
  | bgezal | bltzal => exact branchLink_next_aligned ha h
  | j | jal =>
    cases h
    exact jumpTarget_aligned ..
  | _ =>
    have hpc := (exec_effect h ht).pc_eq (by simp [Transfers, mnemonic])
    rw [hpc]
    exact npc_aligned ha

/-- Settles O53. -/
theorem equalityBranchesGo : Obligations.EqualityBranchesGo := by
  intro s rs rt imm target htarget
  rw [htarget, ← branchTarget_eq_ofInt]
  exact ⟨⟨decodeWord_encode (i := .beq rs rt imm) rfl, decodeWord_encode (i := .bne rs rt imm) rfl⟩,
    branch_goesTo_of_iff s imm .rfl, branch_goesTo_of_iff_not s imm .rfl⟩

/-- Settles O54: the model tests the signed value, the statement its top bit. -/
theorem signBranchesGo : Obligations.SignBranchesGo := by
  intro s rs imm target htarget
  rw [htarget, ← branchTarget_eq_ofInt]
  exact ⟨⟨decodeWord_encode (i := .bgez rs imm) rfl, decodeWord_encode (i := .bgtz rs imm) rfl,
      decodeWord_encode (i := .blez rs imm) rfl, decodeWord_encode (i := .bltz rs imm) rfl⟩,
    branch_goesTo_of_iff_not s imm toInt_nonneg_iff_not_msb,
    branch_goesTo_of_iff s imm toInt_pos_iff, branch_goesTo_of_iff s imm toInt_nonpos_iff,
    branch_goesTo_of_iff s imm toInt_neg_iff_msb⟩

/-- Settles O55: one of the two conditions is the opposite of the other. -/
theorem linkingBranchesLinkOnlyWhenTaken : Obligations.LinkingBranchesLinkOnlyWhenTaken := by
  intro s rs imm target htarget
  rw [htarget, ← branchTarget_eq_ofInt]
  refine ⟨⟨decodeWord_encode (i := .bgezal rs imm) rfl,
    decodeWord_encode (i := .bltzal rs imm) rfl⟩, fun hnonneg => ?_, fun hneg => ?_⟩
  · exact ⟨branchLink_links s imm hnonneg, branchLink_goesTo s imm (not_lt.mpr hnonneg)⟩
  · exact ⟨branchLink_goesTo s imm (not_le.mpr hneg), branchLink_links s imm hneg⟩

/-- Settles O56. -/
theorem directJumpsGo : Obligations.DirectJumpsGo := by
  intro s imm target htarget
  rw [htarget, ← jumpTarget_eq_ofNat]
  exact ⟨⟨decodeWord_encode (i := .j imm) rfl, decodeWord_encode (i := .jal imm) rfl⟩,
    ⟨_, rfl, setPc_goesTo ..⟩, ⟨_, rfl, setReg_setPc_linksAndGoesTo ..⟩⟩

/-- Settles O57: a jump leaves `pc` at the register's value, and the next step fetches there. -/
theorem registerJumpsGo : Obligations.RegisterJumpsGo := by
  intro s rd rs
  refine ⟨⟨decodeWord_encode (i := .jalr rd rs) rfl, decodeWord_encode (i := .jr rs) rfl⟩,
    ⟨_, rfl, setPc_goesTo _ s, step_at_misaligned rfl⟩, fun hgo => ?_, ?_⟩
  · obtain ⟨t, hjalr, hlinks⟩ := execJalr_links hgo s
    exact ⟨t, hjalr, hlinks, step_at_misaligned hlinks.1⟩
  · rintro rfl hrd
    exact execJalr_self hrd s

end Sys2Proof.Machine
end

-- ==== Multiply, divide, HIGH and LOW: settles O30 to O35 ====
section
/-! The instructions of R160 to R170. All but a division by zero end in `writeHiLo` or in `writeBack`;
what is left to say is which numbers the two words are. -/

namespace Sys2Proof.Machine

open Sys2Proof Sys2Proof.Safety

/-! ### The values HI and LO take -/

/-- `writeHiLo` writes two values of which whatever is known of `h` and `l` holds. -/
theorem writeHiLo_writes_values {P : Word → Word → Prop} (h l : Word) (s : State) (hp : P h l) :
    ∃ h' l' t, writeHiLo h l s = .next t ∧ WritesHiLo h' l' s t ∧ P h' l' := by
  obtain ⟨t, ht, hw⟩ := writeHiLo_writes h l s
  exact ⟨h, l, t, ht, hw, hp⟩

/-! ### Products (R169, R170) -/

/-- HI and LO together are the product. -/
theorem upperHalf_append_lowerHalf (p : BitVec 64) : upperHalf p ++ lowerHalf p = p :=
  BitVec.extractLsb'_append_extractLsb' (w := 32) (len := 32)

/-- R169: the greatest magnitude is 2^62, which 64 signed bits hold. -/
theorem toInt_ofInt_signedProduct (a b : Word) :
    (BitVec.ofInt 64 (a.toInt * b.toInt)).toInt = a.toInt * b.toInt := by
  have hlow : -2 ^ 62 ≤ a.toInt * b.toInt := BitVec.le_toInt_mul_toInt
  have hhigh : a.toInt * b.toInt ≤ 2 ^ 62 := BitVec.toInt_mul_toInt_le
  rw [BitVec.toInt_ofInt]
  apply Int.bmod_eq_of_le <;> omega

theorem toNat_ofNat_unsignedProduct (a b : Word) :
    (BitVec.ofNat 64 (a.toNat * b.toNat)).toNat = a.toNat * b.toNat := by
  rw [BitVec.toNat_ofNat]
  exact Nat.mod_eq_of_lt BitVec.toNat_mul_toNat_lt

/-! ### Quotients and remainders (R162 to R164) -/

/-- The one pair whose quotient does not fit (R162), as words. -/
theorem overflowPair_iff {n d : Word} :
    n.toInt = -2 ^ 31 ∧ d.toInt = -1 ↔ n = 0x80000000#32 ∧ d = 0xFFFFFFFF#32 :=
  and_congr (BitVec.toInt_inj (y := 0x80000000#32)) (BitVec.toInt_inj (y := 0xFFFFFFFF#32))

/-- R163: away from the pair of R162 the quotient fits. -/
theorem toInt_sdiv_of_not_overflowPair {n d : Word} (h : ¬ (n.toInt = -2 ^ 31 ∧ d.toInt = -1)) :
    (n.sdiv d).toInt = n.toInt.tdiv d.toInt :=
  BitVec.toInt_sdiv_of_ne_or_ne n d (not_and_or.mp (mt overflowPair_iff.mpr h))

/-- The remainder of R163, as the model computes it, is the truncating one. -/
theorem toInt_srem_eq (n d : Word) :
    (n.srem d).toInt = n.toInt - n.toInt.tdiv d.toInt * d.toInt := by
  rw [BitVec.toInt_srem, Int.tmod_def, Int.mul_comm]

section
variable {s : State} {rs rt : RegIdx}

theorem exec_div_of_zero (h : s.reg rt = 0) :
    exec (.div rs rt) s = .next s.drawHiLo.advance :=
  if_pos (toInt_eq_zero_iff.mpr h)

theorem exec_div_of_overflowPair (h : (s.reg rs).toInt = -2 ^ 31 ∧ (s.reg rt).toInt = -1) :
    exec (.div rs rt) s = writeHiLo 0 0x80000000#32 s := by
  have hd : (s.reg rt).toInt ≠ 0 := by omega
  exact (if_neg hd).trans (if_pos h)

/-- R163: HI and LO are the signed remainder and quotient of words. -/
theorem exec_div_of_quotient_fits (hd : (s.reg rt).toInt ≠ 0)
    (h : ¬ ((s.reg rs).toInt = -2 ^ 31 ∧ (s.reg rt).toInt = -1)) :
    exec (.div rs rt) s =
      writeHiLo ((s.reg rs).srem (s.reg rt)) ((s.reg rs).sdiv (s.reg rt)) s := by
  show execDiv rs rt s = _
  simp only [execDiv]
  rw [if_neg hd, if_neg h, ← toInt_srem_eq, ← toInt_sdiv_of_not_overflowPair h,
    BitVec.ofInt_toInt, BitVec.ofInt_toInt]

theorem exec_divu_of_zero (h : s.reg rt = 0) :
    exec (.divu rs rt) s = .next s.drawHiLo.advance :=
  if_pos (congrArg BitVec.toNat h)

/-- R164: HI and LO are the unsigned remainder and quotient of words. -/
theorem exec_divu_of_ne_zero (hd : (s.reg rt).toNat ≠ 0) :
    exec (.divu rs rt) s = writeHiLo (s.reg rs % s.reg rt) (s.reg rs / s.reg rt) s := by
  have hrem : (s.reg rs).toNat - (s.reg rs).toNat / (s.reg rt).toNat * (s.reg rt).toNat =
      (s.reg rs % s.reg rt).toNat := by
    rw [BitVec.toNat_umod, Nat.mod_eq_sub_div_mul]
  show execDivu rs rt s = _
  simp only [execDivu]
  rw [if_neg hd, hrem, ← BitVec.toNat_udiv]
  simp only [BitVec.ofNat_toNat, BitVec.setWidth_eq]

end

/-! ### Division by zero (R161) -/

/-- HI and LO take the next two draws, `pc <- npc`, and nothing else changes. -/
def DrawsHiLo (s t : State) : Prop :=
  t.pc = s.pc + 4 ∧ SameRegs s t ∧ SameBytes s t ∧
  t.hi = Config.freeWord s.draws ∧ t.lo = Config.freeWord (s.draws + 1) ∧
  t.draws = s.draws + 2 ∧ t.params = s.params ∧ t.env = s.env ∧ t.traps = s.traps

theorem drawHiLo_advance_drawsHiLo (s : State) : DrawsHiLo s s.drawHiLo.advance :=
  ⟨rfl, fun _ => rfl, fun _ => rfl, rfl, rfl, rfl, rfl, rfl, rfl⟩

/-! ### Moves to one of the two (R167, R168): the other is written with what it held -/

theorem exec_mthi (rs : RegIdx) (s : State) :
    exec (.mthi rs) s = writeHiLo (s.reg rs) s.lo s := rfl

theorem exec_mtlo (rs : RegIdx) (s : State) :
    exec (.mtlo rs) s = writeHiLo s.hi (s.reg rs) s := rfl

/-! ### The statements -/

/-- Settles O30: no product is lost in 64 bits. -/
theorem multiplyIsExact : Obligations.MultiplyIsExact := by
  intro s rs rt
  refine ⟨⟨decodeWord_encode (i := .mult rs rt) rfl, decodeWord_encode (i := .multu rs rt) rfl⟩,
    writeHiLo_writes_values _ _ s ?_, writeHiLo_writes_values _ _ s ?_⟩
  · rw [upperHalf_append_lowerHalf, toInt_ofInt_signedProduct]
  · rw [upperHalf_append_lowerHalf, toNat_ofNat_unsignedProduct]

/-- Settles O31: division of words truncates, and its remainder is 0 or has the dividend's sign. -/
theorem signedDivisionTruncates : Obligations.SignedDivisionTruncates := by
  intro s rs rt
  refine ⟨decodeWord_encode (i := .div rs rt) rfl, ?_⟩
  rintro _ _ rfl rfl hd hfits
  rw [exec_div_of_quotient_fits hd hfits]
  refine writeHiLo_writes_values _ _ s ?_
  rw [toInt_sdiv_of_not_overflowPair hfits, BitVec.toInt_srem]
  refine ⟨(Int.tdiv_mul_add_tmod ..).symm, ?bound, ?sign⟩
  case bound =>
    rw [Int.natAbs_tmod]
    exact Nat.mod_lt _ (Int.natAbs_pos.mpr hd)
  case sign =>
    rw [Int.sign_tmod, ← Int.dvd_iff_tmod_eq_zero]
    exact (em ((s.reg rt).toInt ∣ (s.reg rs).toInt)).imp_right fun hndvd => if_neg hndvd

/-- Settles O33: division of words is division of the numbers. -/
theorem unsignedDivisionFloors : Obligations.UnsignedDivisionFloors := by
  intro s rs rt
  refine ⟨decodeWord_encode (i := .divu rs rt) rfl, fun hd => ?_⟩
  rw [exec_divu_of_ne_zero hd]
  refine writeHiLo_writes_values _ _ s ?_
  rw [BitVec.toNat_udiv, BitVec.toNat_umod]
  exact ⟨(Nat.div_add_mod' ..).symm, Nat.mod_lt _ (Nat.pos_of_ne_zero hd)⟩

/-- Settles O32: the pair of words is the pair of numbers for which D11 decides. -/
theorem divisionOverflowLeavesDecidedValues : Obligations.DivisionOverflowLeavesDecidedValues := by
  intro s rs rt hn hd
  rw [exec_div_of_overflowPair (overflowPair_iff.mpr ⟨hn, hd⟩)]
  exact writeHiLo_writes 0 0x80000000#32 s

/-- Settles O34: D10, for both instructions by the same two draws. -/
theorem divisionByZeroDrawsHiLo : Obligations.DivisionByZeroDrawsHiLo := fun s _ _ hd =>
  ⟨⟨_, exec_div_of_zero hd, drawHiLo_advance_drawsHiLo s⟩,
    ⟨_, exec_divu_of_zero hd, drawHiLo_advance_drawsHiLo s⟩⟩

/-- Settles O35: each move ends in one of the two shared endings. -/
theorem hiLoMovesCopy : Obligations.HiLoMovesCopy := by
  intro s r
  rw [exec_mthi, exec_mtlo]
  exact ⟨⟨decodeWord_encode (i := .mfhi r) rfl, decodeWord_encode (i := .mflo r) rfl,
      decodeWord_encode (i := .mthi r) rfl, decodeWord_encode (i := .mtlo r) rfl⟩,
    writeBack_writes r s.hi s, writeBack_writes r s.lo s,
    writeHiLo_writes (s.reg r) s.lo s, writeHiLo_writes s.hi (s.reg r) s⟩

end Sys2Proof.Machine
end

-- ==== Loads and stores: settles O39 to O43 and O45 to O49 ====
section
/-! The loads and stores of R181 to R194, each one `access` before one of two endings. -/

namespace Sys2Proof.Machine

open Sys2Proof Sys2Proof.Safety

/-! ### An access that takes place -/

section
variable {kind : AccessKind} {align : Nat} {ea lo : Word} {n : Nat} {s : State}

theorem access_writeBack_writes {r : RegIdx} {v : Word} (ha : ea.toNat % align = 0)
    (hv : s.memValid lo n kind = true) :
    ∃ t, access kind align ea lo n s (writeBack r v s) = .next t ∧ WritesReg r v s t := by
  rw [access_ok ha hv]
  exact writeBack_writes r v s

theorem access_storeBack_changes {ws : List (Word × Byte)} {stored : Word → Prop}
    (ha : ea.toNat % align = 0) (hv : s.memValid lo n kind = true) (hs : ∀ w ∈ ws, stored w.1) :
    ∃ t, access kind align ea lo n s (storeBack ws s) = .next t ∧ ChangesOnlyBytes stored s t ∧
      ∀ a, t.byte a = (s.setBytes ws).byte a := by
  rw [access_ok ha hv]
  exact storeBack_changes ws s stored hs

end

/-! ### Whole bytes, halfwords and words -/

/-- Settles O39: extending keeps the number, and every address is a multiple of 1. -/
theorem byteLoadsExtend : Obligations.ByteLoadsExtend := by
  rintro s rt rs offset _ rfl
  refine ⟨⟨decodeWord_encode (i := .lb rt offset rs) rfl,
    decodeWord_encode (i := .lbu rt offset rs) rfl⟩, fun hv => ?valid,
    fun hv => ⟨access_invalid (Nat.mod_one _) hv, access_invalid (Nat.mod_one _) hv⟩⟩
  case valid =>
    rw [exec_lb_of_valid hv, exec_lbu_of_valid hv]
    exact ⟨writeBack_writes_value rt _ s (BitVec.toInt_signExtend_of_le (by decide)),
      writeBack_writes_value rt _ s (BitVec.toNat_setWidth_of_le (by decide))⟩

/-- Settles O40. The halfword is `readHalf` written out. -/
theorem halfwordLoadsExtendOrTrap : Obligations.HalfwordLoadsExtendOrTrap := by
  rintro s rt rs offset _ _ rfl rfl
  refine ⟨⟨decodeWord_encode (i := .lh rt offset rs) rfl,
    decodeWord_encode (i := .lhu rt offset rs) rfl⟩, fun ha hv => ?valid,
    fun ha => ⟨access_misaligned ha, access_misaligned ha⟩,
    fun ha hv => ⟨access_invalid ha hv, access_invalid ha hv⟩⟩
  case valid =>
    rw [exec_lh_of_valid ha hv, exec_lhu_of_valid ha hv]
    exact ⟨writeBack_writes_value rt _ s (BitVec.toInt_signExtend_of_le (by decide)),
      writeBack_writes_value rt _ s (BitVec.toNat_setWidth_of_le (by decide))⟩

/-- Settles O41, one answer of the access per clause. -/
theorem wordLoadReadsOrTraps : Obligations.WordLoadReadsOrTraps := by
  rintro s rt rs offset _ rfl
  rw [← readWord_eq_append]
  exact ⟨decodeWord_encode (i := .lw rt offset rs) rfl, access_writeBack_writes, access_misaligned,
    access_invalid⟩

/-- What a whole store leaves, byte by byte (R43). -/
theorem access_storeBytes_changes {ea v : Word} {n : Nat} {s : State} (hn : n ≤ 4)
    (ha : ea.toNat % n = 0) (hv : s.memValid ea n .store = true) :
    ∃ t, access .store n ea ea n s (storeBack (storeBytes s.params.bigEndian ea n v) s) = .next t ∧
      ChangesOnlyBytes (InSpan ea n) s t ∧
      ∀ i < n, t.byte (ea + BitVec.ofNat 32 i) = byteOfWord s.params.bigEndian n v i := by
  obtain ⟨t, hexec, hframe, hbytes⟩ :=
    access_storeBack_changes ha hv (inSpan_of_mem_storeBytes (be := s.params.bigEndian) (v := v) hn)
  refine ⟨t, hexec, hframe, fun i hi => ?_⟩
  rw [hbytes]
  exact byte_memWrite s ea v hn hi

/-- Settles O45: the one byte stored is the byte at offset 0. -/
theorem byteStoreWrites : Obligations.ByteStoreWrites := by
  rintro s rt rs offset _ rfl
  refine ⟨decodeWord_encode (i := .sb rt offset rs) rfl, fun hv => ?valid,
    access_invalid (Nat.mod_one _)⟩
  case valid =>
    obtain ⟨t, hexec, hframe, hbytes⟩ :=
      access_storeBytes_changes (v := s.reg rt) (by decide) (Nat.mod_one _) hv
    refine ⟨t, hexec, hframe, ?_⟩
    have h := hbytes 0 (by decide)
    simpa [byteOfWord] using h

/-- Settles O46: the low byte is the one at the higher address in a big-endian run (R43). -/
theorem halfwordStoreWritesOrTraps : Obligations.HalfwordStoreWritesOrTraps := by
  rintro s rt rs offset _ rfl
  refine ⟨decodeWord_encode (i := .sh rt offset rs) rfl, fun ha hv => ?valid, access_misaligned,
    access_invalid⟩
  case valid =>
    obtain ⟨t, hexec, hframe, hbytes⟩ :=
      access_storeBytes_changes (v := s.reg rt) (by decide) ha hv
    refine ⟨t, hexec, hframe, ?_⟩
    have h0 := hbytes 0 (by decide)
    have h1 := hbytes 1 (by decide)
    rw [BitVec.add_zero] at h0
    cases hbe : s.params.bigEndian with
    | false =>
      rw [hbe] at h0 h1
      exact ⟨h0, h1⟩
    | true =>
      rw [hbe] at h0 h1
      exact ⟨h1, h0⟩

/-- Settles O47, one answer of the access per clause. -/
theorem wordStoreWritesOrTraps : Obligations.WordStoreWritesOrTraps := by
  rintro s rt rs offset _ rfl
  exact ⟨decodeWord_encode (i := .sw rt offset rs) rfl, access_storeBytes_changes (by decide),
    access_misaligned, access_invalid⟩

/-! ### One partial-word instruction (R187, R188, R193, R194) -/

theorem getLsbD_eq_sigByte (v : Word) (i : Nat) :
    v.getLsbD i = (sigByte v (i / 8)).getLsbD (i % 8) := by
  rw [sigByte, BitVec.getLsbD_extractLsb', Nat.div_add_mod,
    decide_eq_true (Nat.mod_lt i (by decide)), Bool.true_and]

section
variable {s : State} {rt rs : RegIdx} {offset : Imm16}

theorem exec_lwl_writes (hv : s.memValid (leftSpan s.params.bigEndian (effAddr s rs offset)).1
      (leftSpan s.params.bigEndian (effAddr s rs offset)).2 .load = true) :
    ∃ t, exec (.lwl rt offset rs) s = .next t ∧
      WritesReg rt (leftMerge s (effAddr s rs offset) (s.reg rt)) s t :=
  access_writeBack_writes (Nat.mod_one _) hv

theorem exec_lwr_writes (hv : s.memValid (rightSpan s.params.bigEndian (effAddr s rs offset)).1
      (rightSpan s.params.bigEndian (effAddr s rs offset)).2 .load = true) :
    ∃ t, exec (.lwr rt offset rs) s = .next t ∧
      WritesReg rt (rightMerge s (effAddr s rs offset) (s.reg rt)) s t :=
  access_writeBack_writes (Nat.mod_one _) hv

theorem exec_swl_changes (hv : s.memValid (leftSpan s.params.bigEndian (effAddr s rs offset)).1
      (leftSpan s.params.bigEndian (effAddr s rs offset)).2 .store = true) :
    ∃ t, exec (.swl rt offset rs) s = .next t ∧
      ChangesOnlyBytes (InSpan (leftSpan s.params.bigEndian (effAddr s rs offset)).1
        (leftSpan s.params.bigEndian (effAddr s rs offset)).2) s t ∧
      ∀ a, t.byte a =
        (s.setBytes (leftStore s.params.bigEndian (effAddr s rs offset) (s.reg rt))).byte a :=
  access_storeBack_changes (Nat.mod_one _) hv inSpan_of_mem_leftStore

theorem exec_swr_changes (hv : s.memValid (rightSpan s.params.bigEndian (effAddr s rs offset)).1
      (rightSpan s.params.bigEndian (effAddr s rs offset)).2 .store = true) :
    ∃ t, exec (.swr rt offset rs) s = .next t ∧
      ChangesOnlyBytes (InSpan (rightSpan s.params.bigEndian (effAddr s rs offset)).1
        (rightSpan s.params.bigEndian (effAddr s rs offset)).2) s t ∧
      ∀ a, t.byte a =
        (s.setBytes (rightStore s.params.bigEndian (effAddr s rs offset) (s.reg rt))).byte a :=
  access_storeBack_changes (Nat.mod_one _) hv inSpan_of_mem_rightStore

end

section
variable (s : State) (ea old : Word) {k : Nat} (hk : sig s.params.bigEndian ea = k)
include hk

theorem getLsbD_leftMerge {i : Nat} (hi : i < 32) :
    (leftMerge s ea old).getLsbD i =
      if 8 * (3 - k) ≤ i then (s.readWord (wordBase ea)).getLsbD (i - 8 * (3 - k))
      else old.getLsbD i := by
  rw [getLsbD_eq_sigByte, sigByte_leftMerge s ea old (by omega), hk]
  by_cases h : 8 * (3 - k) ≤ i
  · rw [if_pos h, if_pos (by omega), getLsbD_eq_sigByte (s.readWord _),
      show (i - 8 * (3 - k)) / 8 = i / 8 - (3 - k) by omega,
      show (i - 8 * (3 - k)) % 8 = i % 8 by omega]
  · rw [if_neg h, if_neg (by omega), getLsbD_eq_sigByte old]

theorem getLsbD_rightMerge {i : Nat} (hi : i < 32) :
    (rightMerge s ea old).getLsbD i =
      if i < 8 * (4 - k) then (s.readWord (wordBase ea)).getLsbD (i + 8 * k)
      else old.getLsbD i := by
  rw [getLsbD_eq_sigByte, sigByte_rightMerge s ea old (by omega), hk]
  by_cases h : i < 8 * (4 - k)
  · rw [if_pos h, if_pos (by omega), getLsbD_eq_sigByte (s.readWord _),
      Nat.add_mul_div_left i k (by decide), Nat.add_mul_mod_self_left]
  · rw [if_neg h, if_neg (by omega), getLsbD_eq_sigByte old]

/-- R187, with the two parts as fields: `n` bits of memory above `m` bits of the register. -/
theorem leftMerge_eq_append {n m : Nat} (hn : n = 8 * (k + 1)) (h : n + m = 32) :
    leftMerge s ea old =
      ((s.readWord (wordBase ea)).extractLsb' 0 n ++ old.extractLsb' 0 m).cast h := by
  refine BitVec.eq_of_getLsbD_eq fun i hi => ?_
  rw [getLsbD_leftMerge s ea old hk hi, BitVec.getLsbD_cast, BitVec.getLsbD_append,
    BitVec.getLsbD_extractLsb', BitVec.getLsbD_extractLsb', Nat.zero_add, Nat.zero_add,
    show 8 * (3 - k) = m by omega]
  by_cases him : i < m
  · rw [if_neg (by omega), if_pos him, decide_eq_true him, Bool.true_and]
  · rw [if_pos (by omega), if_neg him, decide_eq_true (by omega), Bool.true_and]

/-- R188, with the two parts as fields: `m` bits of the register above `n` bits of memory. -/
theorem rightMerge_eq_append {n m : Nat} (hm : m = 8 * k) (h : m + n = 32) :
    rightMerge s ea old =
      (old.extractLsb' n m ++ (s.readWord (wordBase ea)).extractLsb' m n).cast h := by
  refine BitVec.eq_of_getLsbD_eq fun i hi => ?_
  rw [getLsbD_rightMerge s ea old hk hi, BitVec.getLsbD_cast, BitVec.getLsbD_append,
    BitVec.getLsbD_extractLsb', BitVec.getLsbD_extractLsb', show 8 * (4 - k) = n by omega, ← hm]
  by_cases hin : i < n
  · rw [if_pos hin, if_pos hin, decide_eq_true hin, Bool.true_and, Nat.add_comm]
  · rw [if_neg hin, if_neg hin, decide_eq_true (by omega), Bool.true_and,
      Nat.add_sub_of_le (by omega)]

end

theorem leftMerge_of_sig_eq_three (s : State) (ea old : Word)
    (h : sig s.params.bigEndian ea = 3) : leftMerge s ea old = s.readWord (wordBase ea) :=
  BitVec.eq_of_getLsbD_eq fun _ hi => getLsbD_leftMerge s ea old h hi

theorem rightMerge_of_sig_eq_zero (s : State) (ea old : Word)
    (h : sig s.params.bigEndian ea = 0) : rightMerge s ea old = s.readWord (wordBase ea) :=
  BitVec.eq_of_getLsbD_eq fun _ hi => (getLsbD_rightMerge s ea old h hi).trans (if_pos hi)

/-- Settles O42: the merge is an append of two fields, or the whole word when k is 3. -/
theorem loadWordLeftMerges : Obligations.LoadWordLeftMerges := by
  rintro s rt rs offset _ _ _ _ _ rfl rfl rfl rfl rfl
  refine ⟨decodeWord_encode (i := .lwl rt offset rs) rfl, fun hv => ?valid,
    access_invalid (Nat.mod_one _)⟩
  case valid =>
    obtain ⟨t, hexec, hwrites⟩ := exec_lwl_writes hv
    exact ⟨_, t, hexec, hwrites,
      fun hk => leftMerge_eq_append s _ _ hk (by decide) rfl,
      fun hk => leftMerge_eq_append s _ _ hk (by decide) rfl,
      fun hk => leftMerge_eq_append s _ _ hk (by decide) rfl, leftMerge_of_sig_eq_three s _ _⟩

/-- Settles O43: the merge is an append of two fields, or the whole word when k is 0. -/
theorem loadWordRightMerges : Obligations.LoadWordRightMerges := by
  rintro s rt rs offset _ _ _ _ _ rfl rfl rfl rfl rfl
  refine ⟨decodeWord_encode (i := .lwr rt offset rs) rfl, fun hv => ?valid,
    access_invalid (Nat.mod_one _)⟩
  case valid =>
    obtain ⟨t, hexec, hwrites⟩ := exec_lwr_writes hv
    exact ⟨_, t, hexec, hwrites, rightMerge_of_sig_eq_zero s _ _,
      fun hk => rightMerge_eq_append s _ _ hk (by decide) rfl,
      fun hk => rightMerge_eq_append s _ _ hk (by decide) rfl,
      fun hk => rightMerge_eq_append s _ _ hk (by decide) rfl⟩

/-- Settles O48: the stored bytes are at pairwise distinct addresses, so each stays. -/
theorem storeWordLeftWrites : Obligations.StoreWordLeftWrites := by
  rintro s rt rs offset _ _ _ rfl rfl rfl
  refine ⟨decodeWord_encode (i := .swl rt offset rs) rfl, fun hv => ?valid,
    access_invalid (Nat.mod_one _)⟩
  case valid =>
    obtain ⟨t, hexec, hframe, hbytes⟩ := exec_swl_changes hv
    refine ⟨t, hexec, hframe, fun j hj => ?_⟩
    have hk := sig_le s.params.bigEndian (effAddr s rs offset)
    rw [hbytes, show 24 - 8 * j = 8 * (3 - j) by omega]
    exact byte_setBytes_of_mem s _ (leftStore_distinct ..)
      (List.mem_map.mpr ⟨j, List.mem_range.mpr (by omega), rfl⟩)

/-- Settles O49, as for `swl`. -/
theorem storeWordRightWrites : Obligations.StoreWordRightWrites := by
  rintro s rt rs offset _ _ _ rfl rfl rfl
  refine ⟨decodeWord_encode (i := .swr rt offset rs) rfl, fun hv => ?valid,
    access_invalid (Nat.mod_one _)⟩
  case valid =>
    obtain ⟨t, hexec, hframe, hbytes⟩ := exec_swr_changes hv
    refine ⟨t, hexec, hframe, fun j hj => ?_⟩
    have hk := sig_le s.params.bigEndian (effAddr s rs offset)
    rw [hbytes]
    exact byte_setBytes_of_mem s _ (rightStore_distinct ..)
      (List.mem_map.mpr ⟨j, List.mem_range.mpr (by omega), rfl⟩)

end Sys2Proof.Machine
end

-- ==== Pairs of partial-word accesses: settles O44 and O50 ====
section
/-! The pairs of R189 and R195. `lwl` and `swl` at the byte of significance 3 of a word at any
address `a`, and `lwr` and `swr` at the byte of significance 0, each move the bytes of that word that
lie in their own aligned word. Together these are all four, so either order gives the same. -/

namespace Sys2Proof.Machine

open Sys2Proof Sys2Proof.Safety

/-! ### The bytes of a word at any address

`sigAddr be a i` is the byte of significance `i` of the four at `a`, aligned or not. -/

section
variable {s : State} {rs : RegIdx} {low high : Imm16} {a : Word}

/-- R189, R195: where the left instruction of a pair starts. -/
theorem effAddr_left {be : Bool} (hlow : effAddr s rs low = a) (hhigh : effAddr s rs high = a + 3) :
    effAddr s rs (if be then low else high) = sigAddr be a 3 := by
  cases be with
  | false => exact hhigh
  | true => exact hlow.trans (BitVec.add_zero a).symm

/-- R189, R195: where the right instruction of a pair starts. -/
theorem effAddr_right {be : Bool} (hlow : effAddr s rs low = a)
    (hhigh : effAddr s rs high = a + 3) :
    effAddr s rs (if be then high else low) = sigAddr be a 0 := by
  cases be with
  | false => exact hlow.trans (BitVec.add_zero a).symm
  | true => exact hhigh

end

theorem sigAddr_significance_of_offset (be : Bool) (a : Word) {i : Nat} (hi : i < 4) :
    sigAddr be a (if be then 3 - i else i) = a + BitVec.ofNat 32 i := by
  cases be with
  | false => rfl
  | true => exact congrArg (fun j => a + BitVec.ofNat 32 j) (show 3 - (3 - i) = i by omega)

theorem readWord_eq_wordOfSig (s : State) (a : Word) :
    s.readWord a = wordOfSig fun i => s.byte (sigAddr s.params.bigEndian a i) := by
  have h0 : sigAddr false a 0 = a := BitVec.add_zero a
  have h3 : sigAddr true a 3 = a := BitVec.add_zero a
  unfold State.readWord wordOfSig
  cases s.params.bigEndian with
  | false => simp only [h0]; rfl
  | true => simp only [h3]; rfl

/-- `sigByte_readWord` without the alignment. -/
theorem sigByte_readWord_eq_byte (s : State) (a : Word) {i : Nat} (hi : i ≤ 3) :
    sigByte (s.readWord a) i = s.byte (sigAddr s.params.bigEndian a i) := by
  rw [readWord_eq_wordOfSig, sigByte_wordOfSig _ hi]

/-- The bytes of the word at `a`, by significance, that the left instruction of a pair moves. -/
def LeftMoves (be : Bool) (a : Word) (i : Nat) : Prop := 3 - sig be (sigAddr be a 3) ≤ i

/-- The bytes of the word at `a`, by significance, that the right instruction of a pair moves. -/
def RightMoves (be : Bool) (a : Word) (i : Nat) : Prop := i < 4 - sig be (sigAddr be a 0)

section
variable {be : Bool} {a : Word} {i : Nat}

/-- What one instruction of a pair leaves out, the other moves. -/
theorem leftMoves_or_rightMoves (be : Bool) (a : Word) (i : Nat) :
    LeftMoves be a i ∨ RightMoves be a i := by
  have ha := a.isLt
  cases be <;> simp only [LeftMoves, RightMoves, sig, sigAddr, BitVec.toNat_add, BitVec.toNat_ofNat,
    if_true, if_false, Bool.false_eq_true] <;> omega

/-- The byte that `lwl` and `swl` name from their aligned word is the one counted from `a`. -/
theorem sigAddr_of_leftMoves (h : LeftMoves be a i) (hi : i ≤ 3) :
    sigAddr be (wordBase (sigAddr be a 3)) (i - (3 - sig be (sigAddr be a 3))) =
      sigAddr be a i := by
  have ha := a.isLt
  have hk := sig_le be (sigAddr be a 3)
  apply BitVec.eq_of_toNat_eq
  rw [toNat_sigAddr be _ (by omega), toNat_wordBase]
  cases be <;> simp only [LeftMoves, sig, sigAddr, BitVec.toNat_add, BitVec.toNat_ofNat,
    if_true, if_false, Bool.false_eq_true] at h ⊢ <;> omega

/-- The byte that `lwr` and `swr` name from their aligned word is the one counted from `a`. -/
theorem sigAddr_of_rightMoves (h : RightMoves be a i) :
    sigAddr be (wordBase (sigAddr be a 0)) (i + sig be (sigAddr be a 0)) = sigAddr be a i := by
  have ha := a.isLt
  apply BitVec.eq_of_toNat_eq
  have hle : i + sig be (sigAddr be a 0) ≤ 3 := by unfold RightMoves at h; omega
  rw [toNat_sigAddr be _ hle, toNat_wordBase]
  cases be <;> simp only [RightMoves, sig, sigAddr, BitVec.toNat_add, BitVec.toNat_ofNat,
    if_true, if_false, Bool.false_eq_true] at h ⊢ <;> omega

end

/-! ### The bytes of a pair exist when the four bytes do (assumption 2) -/

theorem exists_offset_of_inSpan {a x : Word} {n : Nat} (h : InSpan a n x) :
    ∃ i < n, x = a + BitVec.ofNat 32 i := by
  refine ⟨(x - a).toNat, h, ?_⟩
  rw [BitVec.ofNat_toNat, BitVec.setWidth_eq, BitVec.add_comm, BitVec.sub_add_cancel]

/-- `MemValid` decomposes into its bytes. -/
theorem memValid_of_inSpan {s : State} {lo : Word} {n : Nat} {kind : AccessKind}
    (htop : lo.toNat + n ≤ 2 ^ 32) (h : ∀ x, InSpan lo n x → s.memValid x 1 kind = true) :
    s.memValid lo n kind = true := by
  refine List.all_eq_true.mpr fun i hi => ?_
  have hi' := List.mem_range.mp hi
  have hx : (lo + BitVec.ofNat 32 i).toNat = lo.toNat + i := by
    rw [BitVec.toNat_add, BitVec.toNat_ofNat]
    omega
  have hspan : InSpan lo n (lo + BitVec.ofNat 32 i) := by
    rw [InSpan, BitVec.toNat_sub, hx]
    omega
  have hv := h _ hspan
  rw [State.memValid, hx] at hv
  exact List.all_eq_true.mp hv 0 (by simp)

/-- Each of the four bytes at `a` exists by itself. -/
def FourBytesExist (kind : AccessKind) (a : Word) (s : State) : Prop :=
  ∀ i < 4, s.memValid (a + BitVec.ofNat 32 i) 1 kind = true

section
variable {be : Bool} {a x : Word} {s t : State} {kind : AccessKind}

theorem inSpan_four_of_inSpan_leftSpan
    (h : InSpan (leftSpan be (sigAddr be a 3)).1 (leftSpan be (sigAddr be a 3)).2 x) :
    InSpan a 4 x := by
  have hb := toNat_wordBase (sigAddr be a 3)
  have ha := a.isLt
  have hx := x.isLt
  cases be <;> simp only [InSpan, leftSpan, sig, sigAddr, BitVec.toNat_sub, BitVec.toNat_add,
    BitVec.toNat_ofNat, if_true, if_false, Bool.false_eq_true] at h hb ⊢ <;> omega

theorem inSpan_four_of_inSpan_rightSpan
    (h : InSpan (rightSpan be (sigAddr be a 0)).1 (rightSpan be (sigAddr be a 0)).2 x) :
    InSpan a 4 x := by
  have hb := toNat_wordBase (sigAddr be a 0)
  have ha := a.isLt
  have hx := x.isLt
  cases be <;> simp only [InSpan, rightSpan, sig, sigAddr, BitVec.toNat_sub, BitVec.toNat_add,
    BitVec.toNat_ofNat, if_true, if_false, Bool.false_eq_true] at h hb ⊢ <;> omega

/-- A span in one aligned word does not pass the top of memory. -/
theorem leftSpan_top (be : Bool) (ea : Word) :
    (leftSpan be ea).1.toNat + (leftSpan be ea).2 ≤ 2 ^ 32 := by
  have hb := toNat_wordBase ea
  have ha := ea.isLt
  cases be <;> simp only [leftSpan, sig, if_true, if_false, Bool.false_eq_true] <;> omega

theorem rightSpan_top (be : Bool) (ea : Word) :
    (rightSpan be ea).1.toNat + (rightSpan be ea).2 ≤ 2 ^ 32 := by
  have hb := toNat_wordBase ea
  have ha := ea.isLt
  cases be <;> simp only [rightSpan, sig, if_true, if_false, Bool.false_eq_true] <;> omega

theorem FourBytesExist.of_inSpan (h : FourBytesExist kind a s) (hx : InSpan a 4 x) :
    s.memValid x 1 kind = true := by
  obtain ⟨i, hi, rfl⟩ := exists_offset_of_inSpan hx
  exact h i hi

theorem FourBytesExist.leftSpan (h : FourBytesExist kind a s) :
    s.memValid (leftSpan be (sigAddr be a 3)).1 (leftSpan be (sigAddr be a 3)).2 kind = true :=
  memValid_of_inSpan (leftSpan_top ..) fun _ hx => h.of_inSpan (inSpan_four_of_inSpan_leftSpan hx)

theorem FourBytesExist.rightSpan (h : FourBytesExist kind a s) :
    s.memValid (rightSpan be (sigAddr be a 0)).1 (rightSpan be (sigAddr be a 0)).2 kind = true :=
  memValid_of_inSpan (rightSpan_top ..) fun _ hx =>
    h.of_inSpan (inSpan_four_of_inSpan_rightSpan hx)

theorem FourBytesExist.of_params_eq (hp : t.params = s.params) (h : FourBytesExist kind a s) :
    FourBytesExist kind a t := by
  simpa only [FourBytesExist, State.memValid, hp] using h

end

/-! ### Loads (R189) -/

/-- `x[rt]` takes the bytes of the word at `a` whose significance `moved` holds of, and keeps its
others. -/
def LoadsBytes (moved : Nat → Prop) (a : Word) (rt : RegIdx) (s t : State) : Prop :=
  ∃ v, WritesReg rt v s t ∧ ∀ i ≤ 3,
    (moved i → sigByte v i = sigByte (s.readWord a) i) ∧
    (¬ moved i → sigByte v i = sigByte (s.reg rt) i)

section
variable {s t u : State} {rt rs : RegIdx} {offset : Imm16} {a : Word} {P Q : Nat → Prop}

/-- R187 at the byte of significance 3. -/
theorem exec_lwl_loadsBytes (hea : effAddr s rs offset = sigAddr s.params.bigEndian a 3)
    (hv : FourBytesExist .load a s) :
    ∃ t, exec (.lwl rt offset rs) s = .next t ∧
      LoadsBytes (LeftMoves s.params.bigEndian a) a rt s t := by
  have hspan := hv.leftSpan (be := s.params.bigEndian)
  rw [← hea] at hspan
  obtain ⟨t, hexec, hwrites⟩ := exec_lwl_writes (rt := rt) hspan
  refine ⟨t, hexec, _, hwrites, fun i hi => ?_⟩
  have hk := sig_le s.params.bigEndian (sigAddr s.params.bigEndian a 3)
  rw [hea, sigByte_leftMerge _ _ _ hi]
  refine ⟨fun h => (if_pos h).trans ?_, fun h => if_neg h⟩
  rw [sigByte_readWord _ _ (by omega), sigAddr_of_leftMoves h hi,
    sigByte_readWord_eq_byte s a hi]

/-- R188 at the byte of significance 0. -/
theorem exec_lwr_loadsBytes (hea : effAddr s rs offset = sigAddr s.params.bigEndian a 0)
    (hv : FourBytesExist .load a s) :
    ∃ t, exec (.lwr rt offset rs) s = .next t ∧
      LoadsBytes (RightMoves s.params.bigEndian a) a rt s t := by
  have hspan := hv.rightSpan (be := s.params.bigEndian)
  rw [← hea] at hspan
  obtain ⟨t, hexec, hwrites⟩ := exec_lwr_writes (rt := rt) hspan
  refine ⟨t, hexec, _, hwrites, fun i hi => ?_⟩
  rw [hea, sigByte_rightMerge _ _ _ hi]
  refine ⟨fun h => (if_pos h).trans ?_, fun h => if_neg h⟩
  have h' : i < 4 - sig s.params.bigEndian (sigAddr s.params.bigEndian a 0) := h
  rw [sigByte_readWord _ _ (by omega), sigAddr_of_rightMoves h,
    sigByte_readWord_eq_byte s a hi]

theorem LoadsBytes.params_eq (h : LoadsBytes P a rt s t) : t.params = s.params := by
  obtain ⟨_, ⟨-, -, -, -, hp, -⟩, -⟩ := h
  exact hp

theorem LoadsBytes.readWord_eq (h : LoadsBytes P a rt s t) : t.readWord a = s.readWord a := by
  have hp := h.params_eq
  obtain ⟨_, ⟨-, -, -, hbytes, -⟩, -⟩ := h
  rw [State.readWord, State.readWord, hp, hbytes, hbytes, hbytes, hbytes]

/-- A base that is not the destination, or that is written with nothing, stays. -/
theorem LoadsBytes.effAddr_eq (h : LoadsBytes P a rt s t) (hrs : rt = 0 ∨ rs ≠ rt)
    (offset : Imm16) : effAddr t rs offset = effAddr s rs offset := by
  obtain ⟨_, ⟨-, hregs, -⟩, -⟩ := h
  rw [effAddr, effAddr, hregs, if_neg fun hq => hrs.elim hq.2 fun hne => hne hq.1]

/-- Two loads that leave out none of the four bytes load the word at `a`. -/
theorem LoadsBytes.pair (h₁ : LoadsBytes P a rt s t) (h₂ : LoadsBytes Q a rt t u)
    (hall : ∀ i, P i ∨ Q i) :
    u.reg rt = (if rt = 0 then 0 else s.readWord a) ∧ u.pc = s.pc + 8 ∧
      (∀ q, q ≠ rt → u.reg q = s.reg q) ∧ SameHiLo s u ∧ SameBytes s u := by
  have hread := h₁.readWord_eq
  obtain ⟨v, ⟨htpc, htregs, ⟨hthi, htlo⟩, htbytes, -⟩, hv⟩ := h₁
  obtain ⟨w, ⟨hupc, huregs, ⟨huhi, hulo⟩, hubytes, -⟩, hw⟩ := h₂
  refine ⟨?value, ?pc, fun q hq => ?_, ⟨huhi.trans hthi, hulo.trans htlo⟩,
    fun x => (hubytes x).trans (htbytes x)⟩
  case value =>
    by_cases h0 : rt = 0
    · rw [if_pos h0, h0]
      exact reg_zero u
    · rw [if_neg h0, huregs, if_pos ⟨rfl, h0⟩]
      refine eq_of_sigByte fun i hi => ?_
      by_cases hQ : Q i
      · rw [(hw i hi).1 hQ, hread]
      · rw [(hw i hi).2 hQ, htregs, if_pos ⟨rfl, h0⟩, (hv i hi).1 ((hall i).resolve_right hQ)]
  case pc =>
    rw [hupc, htpc, BitVec.add_assoc]
    rfl
  rw [huregs, if_neg fun h => hq h.1, htregs, if_neg fun h => hq h.1]

end

/-- Settles O44: the second load finds its base, the memory map and the bytes as the first did. -/
theorem unalignedLoadPairReadsFourBytes : Obligations.UnalignedLoadPairReadsFourBytes := by
  rintro s rt rs low high _ _ a hrs hlow hhigh rfl rfl hv
  have hleft := effAddr_left (be := s.params.bigEndian) hlow hhigh
  have hright := effAddr_right (be := s.params.bigEndian) hlow hhigh
  simp only [← readWord_eq_append]
  refine ⟨?leftFirst, ?rightFirst⟩
  case leftFirst =>
    obtain ⟨t, hlwl, ht⟩ := exec_lwl_loadsBytes (rt := rt) hleft hv
    have hp := ht.params_eq
    rw [← ht.effAddr_eq hrs, ← hp] at hright
    obtain ⟨u, hlwr, hu⟩ := exec_lwr_loadsBytes (rt := rt) hright (.of_params_eq hp hv)
    rw [hp] at hu hlwr
    exact ⟨t, u, hlwl, hlwr, ht.pair hu (leftMoves_or_rightMoves _ a)⟩
  case rightFirst =>
    obtain ⟨t, hlwr, ht⟩ := exec_lwr_loadsBytes (rt := rt) hright hv
    have hp := ht.params_eq
    rw [← ht.effAddr_eq hrs, ← hp] at hleft
    obtain ⟨u, hlwl, hu⟩ := exec_lwl_loadsBytes (rt := rt) hleft (.of_params_eq hp hv)
    rw [hp] at hu hlwl
    exact ⟨t, u, hlwr, hlwl, ht.pair hu fun i => (leftMoves_or_rightMoves _ a i).symm⟩

/-! ### Stores (R195) -/

theorem sigAddr_inj {be : Bool} {a : Word} {i j : Nat} (hi : i ≤ 3) (hj : j ≤ 3)
    (h : sigAddr be a i = sigAddr be a j) : i = j := by
  have hn := congrArg BitVec.toNat h
  have ha := a.isLt
  cases be <;> simp only [sigAddr, BitVec.toNat_add, BitVec.toNat_ofNat, if_true, if_false,
    Bool.false_eq_true] at hn <;> omega

theorem mem_leftStore_sigAddr {be : Bool} {a v : Word} {w : Word × Byte} :
    w ∈ leftStore be (sigAddr be a 3) v ↔
      ∃ i ≤ 3, LeftMoves be a i ∧ w = (sigAddr be a i, sigByte v i) := by
  have hk := sig_le be (sigAddr be a 3)
  simp only [leftStore, List.mem_map, List.mem_range]
  constructor
  · rintro ⟨j, hj, rfl⟩
    have hmoves : LeftMoves be a (3 - j) := by unfold LeftMoves; omega
    refine ⟨3 - j, by omega, hmoves, ?_⟩
    rw [← sigAddr_of_leftMoves hmoves (by omega)]
    congr 2
    omega
  · rintro ⟨i, hi, hmoves, rfl⟩
    have hle : 3 - sig be (sigAddr be a 3) ≤ i := hmoves
    refine ⟨3 - i, by omega, ?_⟩
    rw [← sigAddr_of_leftMoves hmoves hi, show 3 - (3 - i) = i by omega]
    congr 2
    omega

theorem mem_rightStore_sigAddr {be : Bool} {a v : Word} {w : Word × Byte} :
    w ∈ rightStore be (sigAddr be a 0) v ↔
      ∃ i ≤ 3, RightMoves be a i ∧ w = (sigAddr be a i, sigByte v i) := by
  simp only [rightStore, List.mem_map, List.mem_range]
  constructor
  · rintro ⟨j, hj, rfl⟩
    refine ⟨j, by omega, hj, ?_⟩
    rw [← sigAddr_of_rightMoves hj, Nat.add_comm]
  · rintro ⟨i, -, hmoves, rfl⟩
    refine ⟨i, hmoves, ?_⟩
    rw [← sigAddr_of_rightMoves hmoves, Nat.add_comm]

/-- The bytes of the word at `a` whose significance `moved` holds of take those of `v`, and no other
byte changes. -/
def StoresBytes (be : Bool) (moved : Nat → Prop) (a v : Word) (s t : State) : Prop :=
  ChangesOnlyBytes (InSpan a 4) s t ∧ ∀ i ≤ 3,
    (moved i → t.byte (sigAddr be a i) = sigByte v i) ∧
    (¬ moved i → t.byte (sigAddr be a i) = s.byte (sigAddr be a i))

theorem changesOnlyBytes_mono {A B : Word → Prop} {s t : State} (hAB : ∀ x, A x → B x)
    (h : ChangesOnlyBytes A s t) : ChangesOnlyBytes B s t := by
  obtain ⟨hpc, hregs, hhilo, hbytes, hmodel⟩ := h
  exact ⟨hpc, hregs, hhilo, fun x hx => hbytes x fun hA => hx (hAB x hA), hmodel⟩

section
variable {s t u : State} {rt rs : RegIdx} {offset : Imm16} {a v : Word} {be : Bool}
  {P Q : Nat → Prop}

theorem storesBytes_of_mem_iff {ws : List (Word × Byte)}
    (hmem : ∀ w, w ∈ ws ↔ ∃ i ≤ 3, P i ∧ w = (sigAddr be a i, sigByte v i))
    (hdistinct : ws.Pairwise fun x y => x.1 ≠ y.1)
    (hframe : ChangesOnlyBytes (InSpan a 4) s t) (hbytes : ∀ x, t.byte x = (s.setBytes ws).byte x) :
    StoresBytes be P a v s t := by
  refine ⟨hframe, fun i hi => ⟨fun h => ?moved, fun h => ?kept⟩⟩
  case moved =>
    rw [hbytes]
    exact byte_setBytes_of_mem s ws hdistinct ((hmem _).mpr ⟨i, hi, h, rfl⟩)
  case kept =>
    rw [hbytes]
    refine byte_setBytes_of_not_mem s ws fun w hw haddr => ?_
    obtain ⟨j, hj, hPj, rfl⟩ := (hmem w).mp hw
    exact h (sigAddr_inj hj hi haddr ▸ hPj)

/-- R193 at the byte of significance 3. -/
theorem exec_swl_storesBytes (hea : effAddr s rs offset = sigAddr s.params.bigEndian a 3)
    (hv : FourBytesExist .store a s) :
    ∃ t, exec (.swl rt offset rs) s = .next t ∧ StoresBytes s.params.bigEndian
      (LeftMoves s.params.bigEndian a) a (s.reg rt) s t := by
  have hspan := hv.leftSpan (be := s.params.bigEndian)
  rw [← hea] at hspan
  obtain ⟨t, hexec, hframe, hbytes⟩ := exec_swl_changes (rt := rt) hspan
  rw [hea] at hframe hbytes
  exact ⟨t, hexec, storesBytes_of_mem_iff (fun _ => mem_leftStore_sigAddr) (leftStore_distinct ..)
    (changesOnlyBytes_mono (fun _ => inSpan_four_of_inSpan_leftSpan) hframe) hbytes⟩

/-- R194 at the byte of significance 0. -/
theorem exec_swr_storesBytes (hea : effAddr s rs offset = sigAddr s.params.bigEndian a 0)
    (hv : FourBytesExist .store a s) :
    ∃ t, exec (.swr rt offset rs) s = .next t ∧ StoresBytes s.params.bigEndian
      (RightMoves s.params.bigEndian a) a (s.reg rt) s t := by
  have hspan := hv.rightSpan (be := s.params.bigEndian)
  rw [← hea] at hspan
  obtain ⟨t, hexec, hframe, hbytes⟩ := exec_swr_changes (rt := rt) hspan
  rw [hea] at hframe hbytes
  exact ⟨t, hexec, storesBytes_of_mem_iff (fun _ => mem_rightStore_sigAddr)
    (rightStore_distinct ..)
    (changesOnlyBytes_mono (fun _ => inSpan_four_of_inSpan_rightSpan) hframe) hbytes⟩

theorem StoresBytes.params_eq (h : StoresBytes be P a v s t) : t.params = s.params := by
  obtain ⟨⟨-, -, -, -, hp, -⟩, -⟩ := h
  exact hp

theorem StoresBytes.reg_eq (h : StoresBytes be P a v s t) (q : RegIdx) : t.reg q = s.reg q := by
  obtain ⟨⟨-, hregs, -⟩, -⟩ := h
  exact hregs q

theorem StoresBytes.effAddr_eq (h : StoresBytes be P a v s t) (rs : RegIdx) (offset : Imm16) :
    effAddr t rs offset = effAddr s rs offset := by
  rw [effAddr, effAddr, h.reg_eq]

/-- Two stores of one word that leave out none of the four bytes store it at `a`. -/
theorem StoresBytes.pair (h₁ : StoresBytes be P a v s t) (h₂ : StoresBytes be Q a v t u)
    (hall : ∀ i, P i ∨ Q i) :
    (∀ i < 4, u.byte (a + BitVec.ofNat 32 i) = v.extractLsb' (8 * if be then 3 - i else i) 8) ∧
      (∀ x, ¬ InSpan a 4 x → u.byte x = s.byte x) ∧
      u.pc = s.pc + 8 ∧ SameRegs s u ∧ SameHiLo s u := by
  obtain ⟨⟨htpc, htregs, ⟨hthi, htlo⟩, htother, -⟩, ht⟩ := h₁
  obtain ⟨⟨hupc, huregs, ⟨huhi, hulo⟩, huother, -⟩, hu⟩ := h₂
  have hbytes : ∀ i ≤ 3, u.byte (sigAddr be a i) = sigByte v i := by
    intro i hi
    by_cases hQ : Q i
    · exact (hu i hi).1 hQ
    · rw [(hu i hi).2 hQ, (ht i hi).1 ((hall i).resolve_right hQ)]
  refine ⟨fun i hi => ?_, fun x hx => (huother x hx).trans (htother x hx), ?pc,
    fun q => (huregs q).trans (htregs q), huhi.trans hthi, hulo.trans htlo⟩
  case pc =>
    rw [hupc, htpc, BitVec.add_assoc]
    rfl
  rw [← sigAddr_significance_of_offset be a hi]
  exact hbytes _ (by split <;> omega)

end

/-- Settles O50: the second store finds its base, register and memory map as the first did. -/
theorem unalignedStorePairWritesFourBytes : Obligations.UnalignedStorePairWritesFourBytes := by
  rintro s rt rs low high _ _ a hlow hhigh rfl rfl hv
  have hleft := effAddr_left (be := s.params.bigEndian) hlow hhigh
  have hright := effAddr_right (be := s.params.bigEndian) hlow hhigh
  refine ⟨?leftFirst, ?rightFirst⟩
  case leftFirst =>
    obtain ⟨t, hswl, ht⟩ := exec_swl_storesBytes (rt := rt) hleft hv
    have hp := ht.params_eq
    rw [← ht.effAddr_eq, ← hp] at hright
    obtain ⟨u, hswr, hu⟩ := exec_swr_storesBytes (rt := rt) hright (.of_params_eq hp hv)
    rw [hp] at hu hswr
    rw [ht.reg_eq] at hu
    exact ⟨t, u, hswl, hswr, ht.pair hu (leftMoves_or_rightMoves _ a)⟩
  case rightFirst =>
    obtain ⟨t, hswr, ht⟩ := exec_swr_storesBytes (rt := rt) hright hv
    have hp := ht.params_eq
    rw [← ht.effAddr_eq, ← hp] at hleft
    obtain ⟨u, hswl, hu⟩ := exec_swl_storesBytes (rt := rt) hleft (.of_params_eq hp hv)
    rw [hp] at hu hswl
    rw [ht.reg_eq] at hu
    exact ⟨t, u, hswr, hswl, ht.pair hu fun i => (leftMoves_or_rightMoves _ a i).symm⟩

end Sys2Proof.Machine
end

-- ==== Shifts: settles O27 and O28 ====
section
/-! The shifts of R210 to R215. A variable shift is the constant shift by the amount its register
holds, so each of the three values written is described once, for every amount. -/

namespace Sys2Proof.Machine

open Sys2Proof Sys2Proof.Safety

/-! ### A shifted word as a number -/

theorem toNat_shiftLeft_eq_mul (v : Word) (n : Nat) :
    (v <<< n).toNat = v.toNat * 2 ^ n % 2 ^ 32 := by
  rw [BitVec.toNat_shiftLeft, Nat.shiftLeft_eq]

/-- Copies of the sign bit fill the top, so the quotient is the floor (R212). -/
theorem toInt_sshiftRight_eq_div (v : Word) (n : Nat) :
    (v.sshiftRight n).toInt = v.toInt / 2 ^ n := by
  rw [BitVec.toInt_sshiftRight, Int.shiftRight_eq_div_pow, Nat.cast_pow, Nat.cast_ofNat]

theorem toNat_ushiftRight_eq_div (v : Word) (n : Nat) : (v >>> n).toNat = v.toNat / 2 ^ n := by
  rw [BitVec.toNat_ushiftRight, Nat.shiftRight_eq_div_pow]

/-- R211: the low five bits are the remainder by 32. -/
theorem shiftAmount_eq_mod (s : State) (rs : RegIdx) :
    shiftAmount s rs = (s.reg rs).toNat % 32 := by
  rw [shiftAmount, toNat_field]
  omega

/-! ### What a shift by any amount writes -/

section
variable (rd rt : RegIdx) (sa : Nat) (s : State)

theorem exec_sll_writes : ∃ v t, exec (.sll rd rt sa) s = .next t ∧ WritesReg rd v s t ∧
    v.toNat = (s.reg rt).toNat * 2 ^ sa % 2 ^ 32 :=
  writeBack_writes_value rd _ s (toNat_shiftLeft_eq_mul ..)

theorem exec_sra_writes : ∃ v t, exec (.sra rd rt sa) s = .next t ∧ WritesReg rd v s t ∧
    v.toInt = (s.reg rt).toInt / 2 ^ sa :=
  writeBack_writes_value rd _ s (toInt_sshiftRight_eq_div ..)

theorem exec_srl_writes : ∃ v t, exec (.srl rd rt sa) s = .next t ∧ WritesReg rd v s t ∧
    v.toNat = (s.reg rt).toNat / 2 ^ sa :=
  writeBack_writes_value rd _ s (toNat_ushiftRight_eq_div ..)

end

section
variable (rd rt rs : RegIdx) (s : State)

theorem exec_sllv_eq_exec_sll :
    exec (.sllv rd rt rs) s = exec (.sll rd rt (shiftAmount s rs)) s := rfl

theorem exec_srav_eq_exec_sra :
    exec (.srav rd rt rs) s = exec (.sra rd rt (shiftAmount s rs)) s := rfl

theorem exec_srlv_eq_exec_srl :
    exec (.srlv rd rt rs) s = exec (.srl rd rt (shiftAmount s rs)) s := rfl

end

/-! ### A constant amount in its field (R76) -/

/-- A five-bit field is what the encoder makes of the number it holds. -/
theorem encodeR_ofNat_toNat (rs rt rd : RegIdx) (sa : BitVec 5) (f : BitVec 6) :
    encodeR rs rt rd (BitVec.ofNat 5 sa.toNat) f = encodeR rs rt rd sa f := by
  rw [BitVec.ofNat_toNat, BitVec.setWidth_eq]

theorem decodeWord_of_encode_eq {i : Instr} {w : Word} (hwf : i.wellFormed = true)
    (h : encode i = w) : decodeWord w = .ok i := h ▸ decodeWord_encode hwf

/-! ### The statements -/

/-- Settles O27: a five-bit amount is well formed, and the three values hold for any amount. -/
theorem constantShiftsWrite : Obligations.ConstantShiftsWrite := by
  intro s rd rt sa
  have hwf : decide (sa.toNat < 32) = true := decide_eq_true sa.isLt
  exact ⟨⟨decodeWord_of_encode_eq hwf (encodeR_ofNat_toNat ..),
      decodeWord_of_encode_eq hwf (encodeR_ofNat_toNat ..),
      decodeWord_of_encode_eq hwf (encodeR_ofNat_toNat ..)⟩,
    exec_sll_writes rd rt _ s, exec_sra_writes rd rt _ s, exec_srl_writes rd rt _ s⟩

/-- Settles O28: each is the constant shift by the register's value modulo 32. -/
theorem variableShiftsUseLowFiveBits : Obligations.VariableShiftsUseLowFiveBits := by
  intro s rd rt rs
  rw [exec_sllv_eq_exec_sll, exec_srav_eq_exec_sra, exec_srlv_eq_exec_srl, shiftAmount_eq_mod]
  exact ⟨⟨decodeWord_encode (i := .sllv rd rt rs) rfl, decodeWord_encode (i := .srav rd rt rs) rfl,
      decodeWord_encode (i := .srlv rd rt rs) rfl⟩,
    exec_sll_writes rd rt _ s, exec_sra_writes rd rt _ s, exec_srl_writes rd rt _ s⟩

end Sys2Proof.Machine
end

-- ==== The system call: settles O60 ====
section
/-! The system call of R220 and R221: it is the trap of its own address and nothing else, so what it
does is what the environment's answer makes of that trap. -/

namespace Sys2Proof.Machine

open Sys2Proof Sys2Proof.Safety

/-! ### What a system call does -/

section
variable (s : State)

/-- R220: `syscall` has no effect of its own beside the trap. -/
theorem exec_syscall_eq_raise : exec .syscall s = raise (.syscall s.pc) s := rfl

/-- R221: the `pc` that the environment names plays no part after a system call. -/
theorem resumePc_syscall (p : Word) (r : Resume) : resumePc (.syscall p) r = p + 4 := rfl

variable {s}

theorem exec_syscall_of_resume {r : Resume} (h : envAnswer (.syscall s.pc) s = .resume r) :
    exec .syscall s = .next (resumeFrom (.syscall s.pc) r s.answered) := by
  rw [exec_syscall_eq_raise, raise_of_resume rfl h]

theorem exec_syscall_of_endRun (h : envAnswer (.syscall s.pc) s = .endRun) :
    exec .syscall s = .fault (.syscall s.pc) := by
  rw [exec_syscall_eq_raise, raise_of_endRun h]

/-- The frame is that of every resumed trap (`resumeFrom_resumesWith`); only the `pc` is the
system call's own. -/
theorem resumeFrom_syscall_resumesWith (r : Resume) :
    ResumesWith (s.pc + 4) r s (resumeFrom (.syscall s.pc) r s.answered) := by
  have hframe := resumeFrom_resumesWith (.syscall s.pc) r s
  rwa [resumePc_syscall] at hframe

end

/-! ### The statement -/

/-- Settles O60: the word decodes as the encoder laid it out, and the two answers of the environment
are the two outcomes. -/
theorem syscallHandsOverAndResumes : Obligations.SyscallHandsOverAndResumes :=
  ⟨decodeWord_encode (i := .syscall) rfl, fun _ =>
    ⟨fun r h => ⟨_, exec_syscall_of_resume h, resumeFrom_syscall_resumesWith r⟩,
      exec_syscall_of_endRun⟩⟩

end Sys2Proof.Machine
end

-- ==== The events of a step and who answers them: settles O11, O18, O58 and O59 ====
section
/-! What each instruction can end in (R230, R231), said once for every instruction, and what the
environment's answer makes of a trap (R232, R233). -/

namespace Sys2Proof.Machine

open Sys2Proof Sys2Proof.Safety

/-! ### The events of R231 -/

/-- R231's table: the events that `i` can end in from `s`, each with the `pc` that R230 has it
carry. -/
inductive CanEndIn (i : Instr) (s : State) : Fault → Prop
  | overflow (row : mnemonic i ∈ ["add", "addi", "sub"]) : CanEndIn i s (.integerOverflow s.pc)
  | loadMisaligned {a : Word} (row : mnemonic i ∈ ["lh", "lhu", "lw"]) :
      CanEndIn i s (.addressError .load a s.pc)
  | storeMisaligned {a : Word} (row : mnemonic i ∈ ["sh", "sw"]) :
      CanEndIn i s (.addressError .store a s.pc)
  | loadMissing {a : Word} (row : mnemonic i ∈ ["lh", "lhu", "lw", "lb", "lbu", "lwl", "lwr"]) :
      CanEndIn i s (.busFault .load a s.pc)
  | storeMissing {a : Word} (row : mnemonic i ∈ ["sh", "sw", "sb", "swl", "swr"]) :
      CanEndIn i s (.busFault .store a s.pc)
  | syscall (row : mnemonic i = "syscall") : CanEndIn i s (.syscall s.pc)
  | unpredictable (row : mnemonic i = "jalr") : CanEndIn i s (.unpredictable s.pc)

/-- The answer is a next state or one of the events, and so no refusal. -/
inductive EndsWithin (events : Fault → Prop) : Result → Prop
  | completes (t : State) : EndsWithin events (.next t)
  | stops {e : Fault} (event : events e) : EndsWithin events (.fault e)

section
variable {events : Fault → Prop} {s : State}

theorem EndsWithin.event_of_fault {e : Fault} (h : EndsWithin events (.fault e)) : events e := by
  cases h with
  | stops event => exact event

theorem EndsWithin.not_refused {r : Refusal} (h : EndsWithin events (.refused r)) : False := by
  cases h

theorem EndsWithin.exists_next {res : Result} (h : EndsWithin events res)
    (none : ∀ e, ¬ events e) : ∃ t, res = .next t := by
  cases h with
  | completes t => exact ⟨t, rfl⟩
  | stops event => exact absurd event (none _)

/-! ### The shared operations -/

theorem raise_endsWithin {e : Fault} (event : events e) : EndsWithin events (raise e s) := by
  rcases raise_cases e s with ⟨-, h⟩ | ⟨_, -, -, h⟩ <;> rw [h]
  · exact .stops event
  · exact .completes _

theorem writeChecked_endsWithin {r : RegIdx} {z : Int}
    (overflow : events (.integerOverflow s.pc)) : EndsWithin events (writeChecked r z s) := by
  rcases writeChecked_cases r z s with ⟨-, h⟩ | ⟨-, h⟩ <;> rw [h]
  · exact .completes _
  · exact raise_endsWithin overflow

theorem access_endsWithin {kind : AccessKind} {align : Nat} {ea lo : Word} {n : Nat} {go : Result}
    (misaligned : ea.toNat % align ≠ 0 → events (.addressError kind ea s.pc))
    (missing : events (.busFault kind lo s.pc)) (took : EndsWithin events go) :
    EndsWithin events (access kind align ea lo n s go) := by
  rcases access_cases kind align ea lo n s go with ⟨ha, h⟩ | ⟨-, -, h⟩ | ⟨-, -, h⟩ <;> rw [h]
  · exact raise_endsWithin (misaligned ha)
  · exact .stops missing
  · exact took

/-- Byte and partial-word accesses ask for no alignment (R47). -/
theorem access_unaligned_endsWithin {kind : AccessKind} {ea lo : Word} {n : Nat} {go : Result}
    (missing : events (.busFault kind lo s.pc)) (took : EndsWithin events go) :
    EndsWithin events (access kind 1 ea lo n s go) :=
  access_endsWithin (fun ha => absurd (Nat.mod_one _) ha) missing took

/-! ### The instructions with cases of their own -/

theorem branchLink_endsWithin {taken : Bool} {imm : Imm16} :
    EndsWithin events (branchLink taken imm s) := by
  cases taken <;> exact .completes _

/-- R144 is the only case of `jalr` that stops. -/
theorem execJalr_endsWithin {rd rs : RegIdx} (same : events (.unpredictable s.pc)) :
    EndsWithin events (execJalr rd rs s) := by
  unfold execJalr
  split
  · exact raise_endsWithin same
  · exact .completes _

/-- R161, R162: a division completes whatever its operands. -/
theorem execDiv_endsWithin {rs rt : RegIdx} : EndsWithin events (execDiv rs rt s) := by
  unfold execDiv
  dsimp only
  split
  · exact .completes _
  · split <;> exact .completes _

theorem execDivu_endsWithin {rs rt : RegIdx} : EndsWithin events (execDivu rs rt s) := by
  unfold execDivu
  dsimp only
  split <;> exact .completes _

end

/-- Everything an instruction can answer: a next state, or an event of its row of R231. -/
theorem exec_endsWithin (i : Instr) (s : State) : EndsWithin (CanEndIn i s) (exec i s) := by
  cases i with
  | add | addi | sub => exact writeChecked_endsWithin (.overflow (by simp [mnemonic]))
  | lh | lhu | lw =>
    exact access_endsWithin (fun _ => .loadMisaligned (by simp [mnemonic]))
      (.loadMissing (by simp [mnemonic])) (.completes _)
  | lb | lbu | lwl | lwr =>
    exact access_unaligned_endsWithin (.loadMissing (by simp [mnemonic])) (.completes _)
  | sh | sw =>
    exact access_endsWithin (fun _ => .storeMisaligned (by simp [mnemonic]))
      (.storeMissing (by simp [mnemonic])) (.completes _)
  | sb | swl | swr =>
    exact access_unaligned_endsWithin (.storeMissing (by simp [mnemonic])) (.completes _)
  | syscall => exact raise_endsWithin (e := .syscall s.pc) (.syscall rfl)
  | jalr => exact execJalr_endsWithin (.unpredictable rfl)
  | bgezal | bltzal => exact branchLink_endsWithin
  | div => exact execDiv_endsWithin
  | divu => exact execDivu_endsWithin
  | addiu | addu | and | andi | lui | nor | or | ori | slt | slti | sltiu | sltu | subu | xor | xori
  | sll | sllv | sra | srav | srl | srlv | mfhi | mflo | mthi | mtlo | mult | multu
  | beq | bgez | bgtz | blez | bltz | bne | j | jal | jr => exact .completes _

/-- The instructions that R231 gives a row of their own; it leaves the others no event. -/
theorem CanEndIn.mnemonic_mem {i : Instr} {s : State} {e : Fault} (h : CanEndIn i s e) :
    mnemonic i ∈ ["add", "addi", "sub", "lh", "lhu", "lw", "sh", "sw", "lb", "lbu", "lwl", "lwr",
      "sb", "swl", "swr", "syscall", "jalr"] := by
  cases h with
  | overflow row | loadMisaligned row | storeMisaligned row | loadMissing row | storeMissing row =>
    exact List.subset_def.mp (by decide) row
  | syscall row | unpredictable row => simp [row]

/-! ### Traps that the environment answers -/

/-- After an overflow or an address error the run goes on where the environment says (R232). -/
theorem resumable_resumePc_of_answered {e : Fault}
    (h : (∃ p, e = .integerOverflow p) ∨ ∃ k a p, e = .addressError k a p) :
    resumable e = true ∧ ∀ r, resumePc e r = r.pc := by
  rcases h with ⟨_, rfl⟩ | ⟨_, _, _, rfl⟩ <;> exact ⟨rfl, fun _ => rfl⟩

/-! ### The statements -/

/-- Settles O18, by what each instruction can answer. -/
theorem eventsOfEachInstruction : Obligations.EventsOfEachInstruction := by
  refine fun i s => ⟨fun e he => ?_, fun others => ?_⟩
  · have event : CanEndIn i s e := (he ▸ exec_endsWithin i s).event_of_fault
    cases event with
    | overflow row | loadMisaligned row | storeMisaligned row | loadMissing row
    | storeMissing row | syscall row | unpredictable row => exact ⟨rfl, row⟩
  · exact (exec_endsWithin i s).exists_next fun _ event => others event.mnemonic_mem

/-- Settles O59: the state is the one that resuming after any trap makes. -/
theorem answeredTrapsResume : Obligations.AnsweredTrapsResume := by
  intro s e r answer kinds
  obtain ⟨hres, hpc⟩ := resumable_resumePc_of_answered kinds
  have hframe := resumeFrom_resumesWith e r s
  rw [hpc] at hframe
  exact ⟨_, raise_of_resume hres answer, hframe⟩

/-- Settles O11, one case per outcome of the fetch, in the order of R236. -/
theorem stepNeverRefuses : Obligations.StepNeverRefuses := by
  intro s r h
  by_cases ha : s.pc.toNat % 4 = 0
  · cases hv : s.memValid s.pc 4 .fetch with
    | false => rw [step_of_missing ha hv] at h; cases h
    | true =>
      cases hd : decodeWord (s.readWord s.pc) with
      | error => rw [step_of_reserved ha hv hd] at h; cases h
      | ok i =>
        rw [step_of_decoded ha hv hd] at h
        exact (h ▸ exec_endsWithin i s).not_refused
  · rw [step_of_misaligned ha] at h
    exact raise_not_refused h

/-- Settles O58: who answers, and the events that stop whoever answers. -/
theorem unansweredTrapsStop : Obligations.UnansweredTrapsStop := fun s e =>
  ⟨fun none => envAnswer_nil none e, fun _ _ next => envAnswer_cons next e, raise_of_endRun,
    fun _ _ => raise_of_not_resumable rfl s, fun _ _ _ => raise_of_not_resumable rfl s,
    fun _ => raise_of_not_resumable rfl s⟩

end Sys2Proof.Machine
end

-- ==== The canonical form of memory, and the example words: settles O3, O8 and O9 ====
section
/-! The canonical form of memory (R33, assumption 6) at reset and along every step, and the words that
the spec gives as examples of its encoding. -/

namespace Sys2Proof.Machine

open Sys2Proof Sys2Proof.Safety

/-! ### The canonical form, update by update -/

section
variable {s t : State}

theorem canonical_of_mem_eq (hm : t.mem = s.mem) (hs : Canonical s) : Canonical t := by
  unfold Canonical
  rw [hm]
  exact hs

/-- Only a byte write touches the memory; its address is a word, hence below 2^32. -/
theorem Update.canonical (h : Update s t) (hs : Canonical s) : Canonical t := by
  cases h with
  | setByte a b => exact setByte_canonical hs a b
  | setReg r v => exact canonical_of_mem_eq (setReg_mem s r v) hs
  | setPc | setHi | setLo | drawHiLo | answered => exact canonical_of_mem_eq rfl hs

end

/-! ### The statements -/

/-- Settles O9: a step, resumed traps included, is made of updates, and each keeps the form. -/
theorem stepKeepsMemoryCanonical : Obligations.StepKeepsMemoryCanonical := fun _ _ hs h =>
  (updates_of_step h).keeps Update.canonical hs

/-- Settles O8: no byte is listed at reset. -/
theorem resetMemoryIsCanonical : Obligations.ResetMemoryIsCanonical :=
  ⟨.nil, fun _ hc => absurd hc List.not_mem_nil⟩

/-- Settles O3: each word is the encoding of its well-formed instruction, so it decodes to it. -/
theorem exampleWordsDecode : Obligations.ExampleWordsDecode :=
  ⟨decodeWord_of_encode_eq rfl rfl, decodeWord_of_encode_eq rfl rfl,
    decodeWord_of_encode_eq rfl rfl, decodeWord_of_encode_eq rfl rfl,
    decodeWord_of_encode_eq rfl rfl, decodeWord_of_encode_eq rfl rfl,
    decodeWord_of_encode_eq rfl rfl⟩

end Sys2Proof.Machine
end
